-- ==== Sys2Proof/Word.lean ====
section
/-! DEFINITION. The word types of the block, at the widths of 00_scope.md R4 and R5. -/

namespace Sys2Proof

/-- One sample or one byte of sample memory: SAMPLE_W = 8 bits (R4, R42). -/
abbrev Byte := BitVec 8

/-- ADDR_W = LEN_W = ARG_W = 32 bits (R5): addresses, lengths, the sample index, the host's words. -/
abbrev Word := BitVec 32

/-- DAC_W = VALUE_W = 10 bits (R4, R5): the two cached samples and every emitted value. -/
abbrev DacValue := BitVec 10

/-- TIMER_W = 16 bits (R5): the period register and the counter. -/
abbrev TimerWord := BitVec 16

/-- PHASE_W = 3 bits (R5), and the 3 bits the oversampling factor is stored in (R18). -/
abbrev Phase := BitVec 3

/-- The 6-bit key of the engine's phase decode, factor in bits 5..3 and p in bits 2..0 (R66). -/
abbrev PhaseKey := BitVec 6

end Sys2Proof
end

