-- ==== Sys2Proof/Syntax.lean ====
section
/-! DEFINITION. What can be put to the machine: the instructions (one constructor per row of
spec/opcode_table.json), the two formats they are encoded in, the host's accesses, the platform's
actions, whose turn it is, and the text form of 30_encoding.md R69 and R70. -/

namespace Sys2Proof

/-- The operations that have an encoding (R60, R64, R66), in the order of the opcode table: the three
host commands, whose operands are `ARG0` and `ARG1` (R63), and the twelve rows of the engine's phase
decode, each named after its micro-operation and its key: `F<factor>P<p>`. -/
inductive Instr where
  | configure
  | play
  | pause
  | emitFullF1P1
  | emitFullF1P2
  | emitFullF1P3
  | emitFullF1P4
  | emitHalfF2P1
  | emitFullF2P2
  | emitFullF2P3
  | emitFullF2P4
  | emitQuarterF4P1
  | emitHalfF4P2
  | emit3QuarterF4P3
  | emitFullF4P4
deriving DecidableEq, Repr

/-- The four emit micro-operations of an engine step (R60, R113). -/
inductive MicroOp where
  | full
  | half
  | quarter
  | threeQuarter
deriving DecidableEq, Repr

/-- An encoded operation in its format: a `CMD` word the host writes (R61, R62), or the key the engine
forms inside a step (R66). The two formats are separate spaces. -/
inductive CodeWord where
  | cmd (word : Word)
  | phase (key : PhaseKey)
deriving DecidableEq, Repr

/-- The width of a host access. Only `word` is part of the interface (R53). -/
inductive AccessWidth where
  | byte
  | half
  | word
deriving DecidableEq, Repr

/-- One access the host tries on the host register space (R52, R53), at an offset from the block's base. -/
inductive HostAccess where
  | write (offset : Word) (width : AccessWidth) (value : Word)
  | read (offset : Word) (width : AccessWidth)
deriving DecidableEq, Repr

/-- The three registers of the host port (R52). -/
inductive HostRegister where
  | arg0
  | arg1
  | cmd
deriving DecidableEq, Repr

/-- What the platform outside the block can do to it: put a byte into sample memory, take one away
(R47, R50, R162 (3)), or reset the block (R160). -/
inductive PlatformAction where
  | place (addr : Word) (value : Byte)
  | release (addr : Word)
  | reset
deriving DecidableEq, Repr

/-- Which agent moves (R9), and for the timer under which of its two readings: `tick` is the untimed
event of R101, `clockCycle` one cycle of the timer's input clock (R100). -/
inductive Turn where
  | host
  | tick
  | clockCycle
  | engine
  | syncComplete
  | platform
deriving DecidableEq, Repr, Inhabited

/-- The text form of the three commands (R69). -/
inductive CommandLine where
  | configure (sampleFrequency oversampling : Word)
  | play (bufferRef length : Word)
  | pause
deriving DecidableEq, Repr

end Sys2Proof
end

