-- ==== Sys2Proof/Decode.lean ====
section
/-! DEFINITION. The opcode map of 30_encoding.md as a table of match and mask (R64, R66), the decoder, the
encoder, the priority-ordered tests the phase rows expand (R113), and the text form (R69, R70). -/

namespace Sys2Proof

/-- A row of the opcode map: `word AND mask = match` selects it (R64). -/
structure OpcodeRow (width : Nat) where
  pattern : BitVec width
  mask    : BitVec width
  instr   : Instr
deriving DecidableEq, Repr

/-- Whether a row of the map selects this word (R64). -/
def OpcodeRow.selects {width : Nat} (row : OpcodeRow width) (word : BitVec width) : Bool :=
  word &&& row.mask == row.pattern

/-- Format `CMD` (R64). -/
def commandRows : List (OpcodeRow 32) :=
  [ ⟨0x00000001#32, 0xFFFFFFFF#32, .configure⟩,
    ⟨0x00000002#32, 0xFFFFFFFF#32, .play⟩,
    ⟨0x00000003#32, 0xFFFFFFFF#32, .pause⟩ ]

/-- Format `PHASE` (R66), the key being factor in bits 5..3 and p in bits 2..0. -/
def phaseRows : List (OpcodeRow 6) :=
  [ ⟨0b001001#6, 0x3F#6, .emitFullF1P1⟩,
    ⟨0b001010#6, 0x3F#6, .emitFullF1P2⟩,
    ⟨0b001011#6, 0x3F#6, .emitFullF1P3⟩,
    ⟨0b001100#6, 0x3F#6, .emitFullF1P4⟩,
    ⟨0b010001#6, 0x3F#6, .emitHalfF2P1⟩,
    ⟨0b010010#6, 0x3F#6, .emitFullF2P2⟩,
    ⟨0b010011#6, 0x3F#6, .emitFullF2P3⟩,
    ⟨0b010100#6, 0x3F#6, .emitFullF2P4⟩,
    ⟨0b100001#6, 0x3F#6, .emitQuarterF4P1⟩,
    ⟨0b100010#6, 0x3F#6, .emitHalfF4P2⟩,
    ⟨0b100011#6, 0x3F#6, .emit3QuarterF4P3⟩,
    ⟨0b100100#6, 0x3F#6, .emitFullF4P4⟩ ]

/-- Why a word decodes to no operation. -/
inductive Undecodable where
  /-- a `CMD` word that is none of the three (R65) -/
  | reservedCommand (word : Word)
  /-- a key that is none of the twelve of R66; no reachable state forms one (R119) -/
  | unlistedPhaseKey (key : PhaseKey)
deriving DecidableEq, Repr

/-- The `CMD` words (R64), every other one rejected by name (R65). -/
def decodeCommand (word : Word) : Except Undecodable Instr :=
  match commandRows.find? (·.selects word) with
  | some row => .ok row.instr
  | none => .error (.reservedCommand word)

/-- The phase keys (R66), every other one rejected by name. -/
def decodePhase (key : PhaseKey) : Except Undecodable Instr :=
  match phaseRows.find? (·.selects key) with
  | some row => .ok row.instr
  | none => .error (.unlistedPhaseKey key)

/-- The decoder, total on every word of both formats. There is no mode, prefix or second length (R68). -/
def decode : CodeWord → Except Undecodable Instr
  | .cmd word => decodeCommand word
  | .phase key => decodePhase key

/-- The encoder, written out from the tables of R64 and R66 a second time. -/
def encode : Instr → CodeWord
  | .configure => .cmd 1#32
  | .play => .cmd 2#32
  | .pause => .cmd 3#32
  | .emitFullF1P1 => .phase (1#3 ++ 1#3)
  | .emitFullF1P2 => .phase (1#3 ++ 2#3)
  | .emitFullF1P3 => .phase (1#3 ++ 3#3)
  | .emitFullF1P4 => .phase (1#3 ++ 4#3)
  | .emitHalfF2P1 => .phase (2#3 ++ 1#3)
  | .emitFullF2P2 => .phase (2#3 ++ 2#3)
  | .emitFullF2P3 => .phase (2#3 ++ 3#3)
  | .emitFullF2P4 => .phase (2#3 ++ 4#3)
  | .emitQuarterF4P1 => .phase (4#3 ++ 1#3)
  | .emitHalfF4P2 => .phase (4#3 ++ 2#3)
  | .emit3QuarterF4P3 => .phase (4#3 ++ 3#3)
  | .emitFullF4P4 => .phase (4#3 ++ 4#3)

/-- The micro-operation of a phase row (R66); the host commands have none. -/
def microOpOf : Instr → Option MicroOp
  | .configure => none
  | .play => none
  | .pause => none
  | .emitFullF1P1 => some .full
  | .emitFullF1P2 => some .full
  | .emitFullF1P3 => some .full
  | .emitFullF1P4 => some .full
  | .emitHalfF2P1 => some .half
  | .emitFullF2P2 => some .full
  | .emitFullF2P3 => some .full
  | .emitFullF2P4 => some .full
  | .emitQuarterF4P1 => some .quarter
  | .emitHalfF4P2 => some .half
  | .emit3QuarterF4P3 => some .threeQuarter
  | .emitFullF4P4 => some .full

/-- The decision table of R113: four tests in priority order over the factor and the incremented phase
counter, the first match winning. `none` is the fall-through of R119. -/
def selectMicroOp (factor p : Nat) : Option MicroOp :=
  if factor ≤ p then some .full
  else if p * 2 = factor then some .half
  else if p * 4 = factor then some .quarter
  else if p = 3 then some .threeQuarter
  else none

/-- The instruction of an opcode-table word. A `CMD` row is given 32 bits, a `PHASE` row 6 bits and so one
whole byte; a bit above the format's width makes it no word of the format (log 22). -/
def decodeTableWord (nbits w : Nat) : Option Instr :=
  if nbits ≤ 8 then
    if w < 2 ^ 6 then (decode (.phase (BitVec.ofNat 6 w))).toOption else none
  else if w < 2 ^ 32 then (decode (.cmd (BitVec.ofNat 32 w))).toOption else none

/-- The register an access writes and the value it puts there, for a legal access; none for a read, a
narrower write or any other offset (R52, R53). -/
def HostAccess.target : HostAccess → Option (HostRegister × Word)
  | .write offset .word value =>
    if offset = 0#32 then some (.arg0, value)
    else if offset = 4#32 then some (.arg1, value)
    else if offset = 8#32 then some (.cmd, value)
    else none
  | .write _ .byte _ => none
  | .write _ .half _ => none
  | .read _ _ => none

/-- A command line as the register writes it expands to (R69). -/
def CommandLine.accesses : CommandLine → List HostAccess
  | .configure sampleFrequency oversampling =>
    [.write 0#32 .word sampleFrequency, .write 4#32 .word oversampling, .write 8#32 .word 1#32]
  | .play bufferRef length =>
    [.write 0#32 .word bufferRef, .write 4#32 .word length, .write 8#32 .word 2#32]
  | .pause => [.write 8#32 .word 3#32]

/-- The pseudo-operation `TICK n` as turns: n times a tick and the engine step it enables (R70). -/
def tickTurns : Nat → List Turn
  | 0 => []
  | n + 1 => .tick :: .engine :: tickTurns n

/-- A command line and the `SYNC` assumed after it, as turns: one for each register write, and one
`SYNC_COMPLETE` (R70). -/
def CommandLine.turns (line : CommandLine) : List Turn :=
  line.accesses.map (fun _ => Turn.host) ++ [.syncComplete]

end Sys2Proof
end

