-- ==== Sys2Proof/Config.lean ====
section
/-! DEFINITION. What an implementation fixes (00_scope.md R4 to R6), and the free values: constants with no
body, so that nothing can be proved of them. `ENGINE_CYCLES` and `SYNC_FAIR`, which no step reads, are
arguments of the predicates of Safety.lean (log 19); `BASE_CLOCK_HZ` is a field of State (log 3). -/

namespace Sys2Proof.Config

/-- SHIFT (R4): the left shift that rescales a sample to the DAC's resolution. -/
def sampleShift : Nat := 2

/-- The first playable index (R4). -/
def firstIndex : Word := 1

/-- DESIGN CHOICE (log 3), unsafe only for a claim that names it: the value of `BASE_CLOCK_HZ` that the
reset state carries. It is the example value of the spec's own vectors (95_test_vectors.md section 2.1),
which the spec forbids to assume (N3): every statement is made for every value of the State field. -/
def exampleBaseClockHz : Nat := 48000000

/-- `CLK_DIV` (R6), open: any number. DESIGN CHOICE that it is a number (log 4); safe. -/
opaque clkDiv : Nat

/-- `CLK_SRC` (R6), open: any number. DESIGN CHOICE that it is a number (log 4); safe. -/
opaque clkSrc : Nat

/-- The unspecified value of `count` after the n-th arm, disarm or configuration (R105, U15): a fresh free
value at each draw (log 14); safe. -/
opaque freeCount : Nat → TimerWord

/-- Whose turn comes when no turn is listed (R9, D16): free at each draw (log 1); safe. -/
opaque freeTurn : Nat → Turn

end Sys2Proof.Config
end

