-- ==== Sys2Proof/Machine/State.lean ====
section
/-! DEFINITION. The state of the block (10_state.md R11), of the sample memory it reads, and of the agents
around it; the faults and refusals; and the state after reset (R34). -/

namespace Sys2Proof.Machine

/-- Why the machine stops with a fault. The block itself raises none (60_exceptions.md R140). -/
inductive Fault where
  /-- Raised by the sample load of an engine step for an element outside the installed buffer (R46, U5, D22).
  Safe: the hardware goes on with a byte no source gives. -/
  | outOfBufferRead (addr : Word)
  /-- Raised by the sample load of an engine step for a byte the platform has not placed or has released
  (R47, U12; log 7). Safe: the hardware goes on with a byte no source gives. -/
  | unplacedSample (addr : Word)
deriving DecidableEq, Repr

/-- Why the machine refuses. -/
inductive Refusal where
  /-- An instruction with no meaning yet; no arm of exec answers it. Safe. -/
  | notModelled (mnemonic : String)
  /-- Raised by `CONFIGURE` with a sample frequency of 0 (R80, U1). Safe: no source defines it. -/
  | zeroSampleFrequency
  /-- Raised by `CONFIGURE` whose top value is 0 (R88, U2). Safe: no source defines it. -/
  | topValueZero
  /-- Raised by `CONFIGURE` whose top value does not fit `top` (R88, U3). Safe: no source defines it. -/
  | topValueTooLarge
  /-- Raised by `PLAY` before the first `CONFIGURE` (R162, U10). Safe: the spec has a model refuse it. -/
  | playBeforeConfigure
  /-- Raised by a host write of a reserved word to `CMD` (R65, U6). Safe: no source defines it. -/
  | reservedCommand (word : Word)
  /-- Raised by a host access that is not part of the interface (R53, U7). Safe: no source defines it. -/
  | illegalHostAccess
deriving DecidableEq, Repr

/-- The timer's mode (R20): match-frequency, or any mode the spec does not name (log 17). -/
inductive TimerMode where
  | mfrq
  | other
deriving DecidableEq, Repr

/-- The timer's prescaler (R20): times 1, or any the spec does not name (log 17). -/
inductive Prescaler where
  | x1
  | other
deriving DecidableEq, Repr

/-- The DAC's output resolution (R22): 10 bits, or any the spec does not name (log 17). -/
inductive DacResolution where
  | bits10
  | other
deriving DecidableEq, Repr

/-- The priority of the timer's interrupt line (R23): the highest level, or any the spec does not name (log 17). -/
inductive IrqPriority where
  | highest
  | other
deriving DecidableEq, Repr

/-- Whether the engine waits for the synchronisation of its end-of-buffer stop (R32). -/
inductive EngineState where
  | idle
  | waitSync
deriving DecidableEq, Repr

/-- The setting of the clock generator that feeds the timer (R21). -/
structure ClkGen where
  div    : Nat
  src    : Nat
  enable : Bool
deriving DecidableEq, Repr

/-- Sample memory (20_memory.md R40): the bytes the platform has placed, by address, addresses strictly
rising. An address that is not listed holds no value (log 7). -/
abbrev Memory := List Host.Cell

/-- The whole machine. The fields from `bufferRef` to `hostBusy` are the registers of R11 and the emission
trace of R31; the rest is the platform's memory, the second observable of R10, and the model's own. -/
structure State where
  /-- R12 -/
  bufferRef     : Word
  /-- R13 -/
  bufferLength  : Word
  /-- R14 -/
  sampleIndex   : Word
  /-- R15 -/
  phaseCounter  : Phase
  /-- R16 -/
  currentValue  : DacValue
  /-- R16 -/
  previousValue : DacValue
  /-- R18 -/
  factor        : Phase
  /-- R19 -/
  top           : TimerWord
  /-- R20 -/
  timerMode     : TimerMode
  /-- R20 -/
  prescaler     : Prescaler
  /-- R21 -/
  clkGen        : ClkGen
  /-- R22 -/
  dacResolution : DacResolution
  /-- R23 -/
  irqPriority   : IrqPriority
  /-- R23 -/
  irqEnable     : Bool
  /-- R24 -/
  timerEnable   : Bool
  /-- R25 -/
  count         : TimerWord
  /-- R26 -/
  ovfPending    : Bool
  /-- R27 -/
  syncBusy      : Bool
  /-- R28 -/
  arg0          : Word
  /-- R28 -/
  arg1          : Word
  /-- R30 -/
  dacData       : DacValue
  /-- R31: every emitted value since reset, oldest first -/
  trace         : List DacValue
  /-- R32 -/
  engineState   : EngineState
  /-- R32 -/
  hostBusy      : Bool
  /-- the sample memory of the platform (R40, R47) -/
  mem           : Memory
  /-- every sample address read since reset, oldest first (R10) -/
  reads         : List Word
  /-- the accesses the host has still to make, in order (log 1) -/
  hostQueue     : List HostAccess
  /-- the actions the platform has still to take, in order (log 1) -/
  platformQueue : List PlatformAction
  /-- whose turns come next; the free value of Config when none is listed (log 1) -/
  turns         : List Turn
  /-- how many free turns have been drawn (log 1) -/
  turnDraws     : Nat
  /-- how many free counter values have been drawn (log 14) -/
  countDraws    : Nat
  /-- the open parameter `BASE_CLOCK_HZ` (R6), constant along every run (log 3) -/
  baseClockHz   : Nat
deriving DecidableEq, Repr

/-- The machine right after reset (R34, R160). The fields R34 calls unspecified hold the values log 5 names
(DESIGN CHOICE, unsafe for a claim that reads one). -/
def State.reset : State where
  bufferRef     := 0
  bufferLength  := 0
  sampleIndex   := 1
  phaseCounter  := 0
  currentValue  := 0
  previousValue := 0
  factor        := 1
  top           := 0
  timerMode     := .other
  prescaler     := .other
  clkGen        := { div := 0, src := 0, enable := false }
  dacResolution := .other
  irqPriority   := .other
  irqEnable     := false
  timerEnable   := false
  count         := 0
  ovfPending    := false
  syncBusy      := false
  arg0          := 0
  arg1          := 0
  dacData       := 0
  trace         := []
  engineState   := .idle
  hostBusy      := false
  mem           := []
  reads         := []
  hostQueue     := []
  platformQueue := []
  turns         := []
  turnDraws     := 0
  countDraws    := 0
  baseClockHz   := Config.exampleBaseClockHz

end Sys2Proof.Machine
end

