-- ==== Sys2Proof/Machine/Flags.lean ====
section
/-! DEFINITION. The one flag of the block, `ovfPending` (10_state.md R26, R36), and the synchronisation status
bits (R27, R32). No arithmetic writes a flag. -/

namespace Sys2Proof.Machine

/-- A timer period has elapsed: the pending flag is set, a second tick merging with the first (R101, R103). -/
def State.raiseOverflow (s : State) : State :=
  { s with ovfPending := true }

/-- The flag clear that ends an engine step, and with it the interrupt (R120, R147). -/
def State.clearOverflow (s : State) : State :=
  { s with ovfPending := false }

/-- The status a write to synchronised hardware state leaves (R8, R27). -/
def State.startSync (s : State) : State :=
  { s with syncBusy := true }

/-- A host command has made a synchronised write: its call has not returned (R32). -/
def State.startHostWait (s : State) : State :=
  { s with syncBusy := true, hostBusy := true }

/-- The synchronisation completes (R104). -/
def State.endSync (s : State) : State :=
  { s with syncBusy := false, hostBusy := false }

/-- The enabling condition of an engine step, which `timerEnable` is no part of (R106, R110). -/
def State.interruptReady (s : State) : Bool :=
  s.ovfPending && s.irqEnable && s.engineState == .idle

/-- The enabling condition of part B of the end-of-buffer stop (R115). -/
def State.stopReady (s : State) : Bool :=
  s.engineState == .waitSync && !s.syncBusy

/-- Whether the engine has a step to take: a new engine step (R110) or part B of the one it is in (R115). -/
def State.engineReady (s : State) : Bool :=
  s.interruptReady || s.stopReady

/-- Whether a host access is accepted; otherwise the host stalls (R32, R53). -/
def State.hostReady (s : State) : Bool :=
  !s.hostBusy && s.engineState == .idle

end Sys2Proof.Machine
end

