-- ==== Sys2Proof/Machine/Operands.lean ====
section
/-! DEFINITION. The values the instructions compute, each from the rule that gives it: the operands of
`CONFIGURE`, the address of a sample, the rescaling of a sample and the interpolation points. Sums,
products and divisions are formed exactly in Nat and narrowed once, at the end (00_scope.md R7). -/

namespace Sys2Proof.Machine

/-- The factor stored for a requested oversampling: 1, 2 or 4 as requested, anything else 1 (R81). -/
def coerceFactor (oversampling : Word) : Phase :=
  if oversampling = 1#32 then 1#3
  else if oversampling = 2#32 then 2#3
  else if oversampling = 4#32 then 4#3
  else 1#3

/-- The top value: the base clock divided by the exact product of rate and factor, truncating (R82, D21). -/
def topValue (baseClockHz sampleFrequency factor : Nat) : Nat :=
  baseClockHz / (sampleFrequency * factor)

/-- The top value a `CONFIGURE` accepted now would program, from its operands `ARG0` and `ARG1` (R63, R82). -/
def State.requestedTop (s : State) : Nat :=
  topValue s.baseClockHz s.arg0.toNat (coerceFactor s.arg1).toNat

/-- The byte address of an element of the buffer, modulo 2^32 (R41, R56). -/
def State.elementAddr (s : State) (index : Word) : Word :=
  s.bufferRef + index

/-- A sample rescaled to the DAC: zero-extended to 10 bits and shifted left by 2 (R111). -/
def rescale (sample : Byte) : DacValue :=
  sample.setWidth 10 <<< Config.sampleShift

/-- The midpoint of a window (R116). -/
def halfPoint (current previous : DacValue) : DacValue :=
  BitVec.ofNat 10 ((current.toNat + previous.toNat) / 2)

/-- The first quarter of a window (R117). -/
def quarterPoint (current previous : DacValue) : DacValue :=
  BitVec.ofNat 10 ((current.toNat + 3 * previous.toNat) / 4)

/-- The third quarter of a window (R118). -/
def threeQuarterPoint (current previous : DacValue) : DacValue :=
  BitVec.ofNat 10 ((3 * current.toNat + previous.toNat) / 4)

/-- The key of the phase decode in this state: factor in bits 5..3, phase counter in bits 2..0 (R66). -/
def State.phaseKey (s : State) : PhaseKey :=
  s.factor ++ s.phaseCounter

end Sys2Proof.Machine
end

