-- ==== Sys2Proof/Machine/Ops.lean ====
section
/-! DEFINITION. The named operations over sample memory and the registers that the meanings and the agents
share. The block raises no exception (60_exceptions.md R140). Its one interrupt is taken by running the
engine when `State.interruptReady` holds: entry saves nothing and changes no mode (R146); the return is
`State.returnFromInterrupt`, the flag clear (R147). -/

namespace Sys2Proof.Machine

/-- The byte at an address, if the platform has placed one. This is what an unlisted address reads as: no
value (DESIGN CHOICE, safe; log 7). -/
def Memory.read : Memory → Nat → Option Byte
  | [], _ => none
  | (addr, value) :: rest, a => if addr = a then some value else Memory.read rest a

/-- Put a byte at an address, keeping addresses strictly rising. -/
def Memory.write : Memory → Nat → Byte → Memory
  | [], a, b => [(a, b)]
  | (addr, value) :: rest, a, b =>
    if a < addr then (a, b) :: (addr, value) :: rest
    else if a = addr then (a, b) :: rest
    else (addr, value) :: Memory.write rest a b

/-- Take the byte at an address away, so that the address holds no value. -/
def Memory.release : Memory → Nat → Memory
  | [], _ => []
  | (addr, value) :: rest, a =>
    if addr = a then rest else (addr, value) :: Memory.release rest a

/-- Addresses strictly rising from `low` on, each inside the 2^32 bytes of R40. -/
def Memory.rising : Nat → Memory → Bool
  | _, [] => true
  | low, (addr, _) :: rest => low ≤ addr && addr < 2 ^ 32 && Memory.rising (addr + 1) rest

/-- The canonical form: every address once, in rising order, inside the address space. -/
def Memory.wf (m : Memory) : Bool :=
  Memory.rising 0 m

/-- The element at an index of the buffer. The hardware reads unchecked; outside the buffer, and where the
platform has placed no byte, no source gives a value and the model faults (R42, R46, U5, U12; log 9). -/
def State.readElement (s : State) (index : Word) : Except Fault Byte :=
  if index.toNat < s.bufferLength.toNat then
    match s.mem.read (s.elementAddr index).toNat with
    | some sample => .ok sample
    | none => .error (.unplacedSample (s.elementAddr index))
  else .error (.outOfBufferRead (s.elementAddr index))

/-- Latch the two samples of a window, rescaled, and record the two reads, current before previous
(R42, R111, D24). -/
def State.latch (s : State) (current previous : Byte) : State :=
  { s with
    currentValue := rescale current
    previousValue := rescale previous
    reads := s.reads ++ [s.elementAddr s.sampleIndex, s.elementAddr (s.sampleIndex - 1)] }

/-- Step 1 of an engine step, the sample load: at phase 0 both samples are read and latched, at any other
phase nothing is read (R111). -/
def State.loadWindow (s : State) : Except Fault State :=
  if s.phaseCounter = 0#3 then
    match s.readElement s.sampleIndex with
    | .error f => .error f
    | .ok current =>
      match s.readElement (s.sampleIndex - 1) with
      | .error f => .error f
      | .ok previous => .ok (s.latch current previous)
  else .ok s

/-- Step 2 of an engine step (R112). -/
def State.nextPhase (s : State) : State :=
  { s with phaseCounter := s.phaseCounter + 1 }

/-- Push a value to the DAC and append it to the emission trace (R130). -/
def State.emit (s : State) (v : DacValue) : State :=
  { s with dacData := v, trace := s.trace ++ [v] }

/-- The end of a window: phase 0, the next sample (R114). -/
def State.nextWindow (s : State) : State :=
  { s with phaseCounter := 0, sampleIndex := s.sampleIndex + 1 }

/-- `count` becomes unspecified: a fresh free value (R105, U15; log 14). -/
def State.drawCount (s : State) : State :=
  { s with count := Config.freeCount s.countDraws, countDraws := s.countDraws + 1 }

/-- The synchronised disable that `PAUSE` and the end-of-buffer stop share (R93, R115). It takes effect at
once: no tick follows it (D18). -/
def State.disarm (s : State) : State :=
  (State.startSync { s with timerEnable := false }).drawCount

/-- Part A of the end-of-buffer stop (R115). -/
def State.beginStop (s : State) : State :=
  { s.disarm with engineState := .waitSync }

/-- The return from the interrupt: the step's last act is the flag clear, and there is nothing to restore
(R120, R147). -/
def State.returnFromInterrupt (s : State) : State :=
  s.clearOverflow

/-- Part B of the end-of-buffer stop, with the flag clear of R120 (R115). -/
def State.endStop (s : State) : State :=
  { s.returnFromInterrupt with sampleIndex := Config.firstIndex, engineState := .idle }

/-- Reset of the block by the platform: every register at its value of R34 and the trace empty (R160).
Sample memory, the agents' queues, the draws and the open parameter are not the block's and stay (log 8). -/
def State.resetBlock (s : State) : State :=
  { State.reset with
    mem := s.mem
    hostQueue := s.hostQueue
    platformQueue := s.platformQueue
    turns := s.turns
    turnDraws := s.turnDraws
    countDraws := s.countDraws
    baseClockHz := s.baseClockHz }

end Sys2Proof.Machine
end

