-- ==== Sys2Proof/Machine/Configure.lean ====
section
/-! DEFINITION. ClockConfigurator (40_clock_configurator.md): the command `CONFIGURE`. -/

namespace Sys2Proof.Machine

/-- The registers a `CONFIGURE` writes, with the factor and the top value it has computed (R81 to R84). -/
def State.programClock (s : State) (factor : Phase) (top : Nat) : State :=
  { s with
    factor := factor
    dacResolution := .bits10
    clkGen := { div := Config.clkDiv, src := Config.clkSrc, enable := true }
    top := BitVec.ofNat 16 top
    irqPriority := .highest
    irqEnable := true
    timerMode := .mfrq
    prescaler := .x1 }

/-- `CONFIGURE` at acceptance (R80 to R88). A frequency of 0 and a top value outside 1 .. 2^16 - 1 are
refused, as the spec has a model do (U1, U2, U3; log 11). `count` is unspecified afterwards (R86). -/
def execConfigure (s : State) : Host.Outcome State Fault Refusal :=
  if s.arg0 = 0#32 then .refused .zeroSampleFrequency
  else if s.requestedTop = 0 then .refused .topValueZero
  else if 2 ^ 16 ≤ s.requestedTop then .refused .topValueTooLarge
  else .next ((s.programClock (coerceFactor s.arg1) s.requestedTop).startHostWait.drawCount)

end Sys2Proof.Machine
end

