-- ==== Sys2Proof/Machine/Emit.lean ====
section
/-! DEFINITION. SampleAdvanceEngine (43_sample_advance_engine.md): the four emit micro-operations and the
twelve rows of the phase decode that run them (30_encoding.md R66). The load, the phase increment and the
flag clear around them are the engine step's own (Agents.lean). -/

namespace Sys2Proof.Machine

/-- `EMIT_FULL`, the last phase of a window: emit the real sample, go to the next window, and stop when the
buffer is exhausted, a test the hardware makes after the emission (R114, R115 part A). -/
def State.emitFull (s : State) : State :=
  let t := (s.emit s.currentValue).nextWindow
  if t.bufferLength.toNat ≤ t.sampleIndex.toNat then t.beginStop else t

/-- `EMIT_HALF`, the midpoint (R116). -/
def State.emitHalf (s : State) : State :=
  s.emit (halfPoint s.currentValue s.previousValue)

/-- `EMIT_QUARTER`, the first quarter (R117). -/
def State.emitQuarter (s : State) : State :=
  s.emit (quarterPoint s.currentValue s.previousValue)

/-- `EMIT_3QUARTER`, the third quarter (R118). -/
def State.emitThreeQuarter (s : State) : State :=
  s.emit (threeQuarterPoint s.currentValue s.previousValue)

/-- The micro-operation the decision table picks (R113). -/
def State.runMicroOp (s : State) : MicroOp → State
  | .full => s.emitFull
  | .half => s.emitHalf
  | .quarter => s.emitQuarter
  | .threeQuarter => s.emitThreeQuarter

/-- `EMIT_FULL` at factor 1, p = 1 (R114, R115). -/
def execEmitFullF1P1 (s : State) : Host.Outcome State Fault Refusal :=
  .next s.emitFull

/-- `EMIT_FULL` at factor 1, p = 2 (R114, R115). -/
def execEmitFullF1P2 (s : State) : Host.Outcome State Fault Refusal :=
  .next s.emitFull

/-- `EMIT_FULL` at factor 1, p = 3 (R114, R115). -/
def execEmitFullF1P3 (s : State) : Host.Outcome State Fault Refusal :=
  .next s.emitFull

/-- `EMIT_FULL` at factor 1, p = 4 (R114, R115). -/
def execEmitFullF1P4 (s : State) : Host.Outcome State Fault Refusal :=
  .next s.emitFull

/-- `EMIT_HALF` at factor 2, p = 1 (R116). -/
def execEmitHalfF2P1 (s : State) : Host.Outcome State Fault Refusal :=
  .next s.emitHalf

/-- `EMIT_FULL` at factor 2, p = 2 (R114, R115). -/
def execEmitFullF2P2 (s : State) : Host.Outcome State Fault Refusal :=
  .next s.emitFull

/-- `EMIT_FULL` at factor 2, p = 3 (R114, R115). -/
def execEmitFullF2P3 (s : State) : Host.Outcome State Fault Refusal :=
  .next s.emitFull

/-- `EMIT_FULL` at factor 2, p = 4 (R114, R115). -/
def execEmitFullF2P4 (s : State) : Host.Outcome State Fault Refusal :=
  .next s.emitFull

/-- `EMIT_QUARTER` at factor 4, p = 1 (R117). -/
def execEmitQuarterF4P1 (s : State) : Host.Outcome State Fault Refusal :=
  .next s.emitQuarter

/-- `EMIT_HALF` at factor 4, p = 2 (R116). -/
def execEmitHalfF4P2 (s : State) : Host.Outcome State Fault Refusal :=
  .next s.emitHalf

/-- `EMIT_3QUARTER` at factor 4, p = 3 (R118). -/
def execEmit3QuarterF4P3 (s : State) : Host.Outcome State Fault Refusal :=
  .next s.emitThreeQuarter

/-- `EMIT_FULL` at factor 4, p = 4 (R114, R115). -/
def execEmitFullF4P4 (s : State) : Host.Outcome State Fault Refusal :=
  .next s.emitFull

end Sys2Proof.Machine
end

