-- ==== Sys2Proof/Machine/Playback.lean ====
section
/-! DEFINITION. PlaybackControl (41_playback_control.md): the commands `PLAY` and `PAUSE`. -/

namespace Sys2Proof.Machine

/-- Install the buffer of `ARG0`, `ARG1` and arm the timer, in one step (R90, R55). -/
def State.installAndArm (s : State) : State :=
  { s with bufferRef := s.arg0, bufferLength := s.arg1, timerEnable := true }

/-- `PLAY` at acceptance (R90 to R92): no operand is checked, the position is kept. Before the first
`CONFIGURE`, which alone sets `irqEnable` (R143), the spec has a model refuse it (R162, U10; log 12). -/
def execPlay (s : State) : Host.Outcome State Fault Refusal :=
  if s.irqEnable then .next (s.installAndArm.startHostWait.drawCount)
  else .refused .playBeforeConfigure

/-- `PAUSE` at acceptance (R93, R94): the timer is disarmed, all else is kept. -/
def execPause (s : State) : Host.Outcome State Fault Refusal :=
  .next (s.disarm.startHostWait)

end Sys2Proof.Machine
end

