-- ==== Sys2Proof/Machine/Dispatch.lean ====
section
/-! DEFINITION. The dispatch: one arm per constructor of Instr, each one call of its meaning. -/

namespace Sys2Proof.Machine

def exec (i : Instr) (s : State) : Host.Outcome State Fault Refusal :=
  match i with
  -- 40_clock_configurator.md
  | .configure => Sys2Proof.Machine.execConfigure s
  -- 41_playback_control.md
  | .play => Sys2Proof.Machine.execPlay s
  | .pause => Sys2Proof.Machine.execPause s
  -- 43_sample_advance_engine.md
  | .emitFullF1P1 => Sys2Proof.Machine.execEmitFullF1P1 s
  | .emitFullF1P2 => Sys2Proof.Machine.execEmitFullF1P2 s
  | .emitFullF1P3 => Sys2Proof.Machine.execEmitFullF1P3 s
  | .emitFullF1P4 => Sys2Proof.Machine.execEmitFullF1P4 s
  | .emitHalfF2P1 => Sys2Proof.Machine.execEmitHalfF2P1 s
  | .emitFullF2P2 => Sys2Proof.Machine.execEmitFullF2P2 s
  | .emitFullF2P3 => Sys2Proof.Machine.execEmitFullF2P3 s
  | .emitFullF2P4 => Sys2Proof.Machine.execEmitFullF2P4 s
  | .emitQuarterF4P1 => Sys2Proof.Machine.execEmitQuarterF4P1 s
  | .emitHalfF4P2 => Sys2Proof.Machine.execEmitHalfF4P2 s
  | .emit3QuarterF4P3 => Sys2Proof.Machine.execEmit3QuarterF4P3 s
  | .emitFullF4P4 => Sys2Proof.Machine.execEmitFullF4P4 s

end Sys2Proof.Machine
end

