-- ==== Sys2Proof/Machine/Agents.lean ====
section
/-! DEFINITION. What each agent does when it has the turn (00_scope.md R9). An agent whose step is not enabled
takes none: the turn passes and nothing changes (log 2). -/

namespace Sys2Proof.Machine

/-- The block takes an access the host makes: an operand write, a command, or a refusal (R52, R53, R61, R65). -/
def State.acceptAccess (s : State) (access : HostAccess) : Host.Outcome State Fault Refusal :=
  match access.target with
  | none => .refused .illegalHostAccess
  | some (.arg0, value) => .next { s with arg0 := value }
  | some (.arg1, value) => .next { s with arg1 := value }
  | some (.cmd, word) =>
    match decode (.cmd word) with
    | .ok i => exec i s
    | .error _ => .refused (.reservedCommand word)

/-- The host's turn: it makes its next access, or stalls until the block is ready (R32, R53). -/
def State.hostTurn (s : State) : Host.Outcome State Fault Refusal :=
  if s.hostReady then
    match s.hostQueue with
    | [] => .next s
    | access :: rest => State.acceptAccess { s with hostQueue := rest } access
  else .next s

/-- The untimed timer event `TICK`, enabled while the timer is armed (R101; log 15). -/
def State.tickTurn (s : State) : State :=
  if s.timerEnable then s.raiseOverflow else s

/-- Whether the timer counts in this state (R100). -/
def State.timerCounts (s : State) : Bool :=
  s.timerEnable && s.clkGen.enable && s.timerMode == .mfrq

/-- One cycle of the timer's input clock (R100): the counter advances, and at the period it returns to 0
and the timer ticks. -/
def State.clockTurn (s : State) : State :=
  if s.timerCounts then
    if s.top.toNat ≤ s.count.toNat + 1 then State.raiseOverflow { s with count := 0 }
    else { s with count := s.count + 1 }
  else s

/-- Step 3 of an engine step: the row of the incremented phase is decoded and executed (R66, R113). A key
that is no row, which no reachable state forms, goes by the tests themselves, to the fall-through of R119
if none matches (log 20). -/
def State.runPhase (s : State) : Host.Outcome State Fault Refusal :=
  match decode (.phase s.phaseKey) with
  | .ok i => exec i s
  | .error _ =>
    match selectMicroOp s.factor.toNat s.phaseCounter.toNat with
    | some op => .next (s.runMicroOp op)
    | none => .next s

/-- Step 4: the flag clear, unless the step now waits at end of buffer, where part B clears it (R115, R120). -/
def State.finishStep (s : State) : State :=
  match s.engineState with
  | .idle => s.returnFromInterrupt
  | .waitSync => s

/-- One whole engine step: load, increment, decode and execute, clear the flag (R111 to R120). -/
def State.engineStep (s : State) : Host.Outcome State Fault Refusal :=
  match s.loadWindow with
  | .error f => .fault f
  | .ok loaded =>
    match loaded.nextPhase.runPhase with
    | .next t => .next t.finishStep
    | .fault f => .fault f
    | .refused r => .refused r

/-- The engine's turn: a step when the interrupt is ready (R110), part B of the stop when its
synchronisation has completed (R115), nothing otherwise. -/
def State.engineTurn (s : State) : Host.Outcome State Fault Refusal :=
  match s.engineState with
  | .idle => if s.interruptReady then s.engineStep else .next s
  | .waitSync => if s.syncBusy then .next s else .next s.endStop

/-- The synchroniser's turn (R104). -/
def State.syncTurn (s : State) : State :=
  if s.syncBusy then s.endSync else s

/-- The platform's turn: its next action on sample memory, or a reset (R50, R160; log 8). -/
def State.platformTurn (s : State) : State :=
  match s.platformQueue with
  | [] => s
  | .place addr value :: rest => { s with platformQueue := rest, mem := s.mem.write addr.toNat value }
  | .release addr :: rest => { s with platformQueue := rest, mem := s.mem.release addr.toNat }
  | .reset :: rest => State.resetBlock { s with platformQueue := rest }

/-- The step of the agent whose turn it is. -/
def State.runTurn (s : State) : Turn → Host.Outcome State Fault Refusal
  | .host => s.hostTurn
  | .tick => .next s.tickTurn
  | .clockCycle => .next s.clockTurn
  | .engine => s.engineTurn
  | .syncComplete => .next s.syncTurn
  | .platform => .next s.platformTurn

/-- Whose turn it is: the first listed, or a free value when none is (R9, D16; log 1). -/
def State.nextTurn (s : State) : Turn :=
  match s.turns with
  | turn :: _ => turn
  | [] => Config.freeTurn s.turnDraws

/-- The turn is taken: struck off the list, or counted as drawn. -/
def State.takeTurn (s : State) : State :=
  match s.turns with
  | _ :: rest => { s with turns := rest }
  | [] => { s with turnDraws := s.turnDraws + 1 }

/-- The two samples a window load needs, put into a buffer that holds them: what `withFetchWord` gives an
engine step that starts a window (log 21). -/
def State.withWindow (s : State) : State :=
  let t := { s with bufferRef := 0, bufferLength := s.sampleIndex + 2 }
  { t with
    mem := (t.mem.write (t.elementAddr (s.sampleIndex - 1)).toNat 10).write (t.elementAddr s.sampleIndex).toNat 20 }

/-- A phase row as what the next step runs: the factor and the stored phase that form its key, the interrupt
pending and enabled, samples to load where the row starts a window, and the engine's turn (log 21). -/
def State.withPhaseKey (s : State) (key : PhaseKey) : State :=
  let t := { s with
    factor := key.extractLsb' 3 3
    phaseCounter := key.extractLsb' 0 3 - 1
    ovfPending := true
    irqEnable := true
    engineState := .idle
    turns := .engine :: s.turns }
  if t.phaseCounter = 0#3 then t.withWindow else t

/-- A command word as what the next step runs: the host's next access, its port free, its turn; for
`CONFIGURE` the operands of a legal rate, for `PLAY` the enable an earlier `CONFIGURE` leaves (log 21). -/
def State.withCommand (s : State) (word : Word) : State :=
  let t := { s with
    hostBusy := false
    engineState := .idle
    hostQueue := .write 8#32 .word word :: s.hostQueue
    turns := .host :: s.turns }
  if word = 1#32 then { t with arg0 := 8000#32, arg1 := 1#32 }
  else if word = 2#32 then { t with irqEnable := true }
  else t

end Sys2Proof.Machine
end

