-- ==== Sys2Proof/Machine/Step.lean ====
section
/-! DEFINITION. The step of the machine, and the placing of an instruction where the next step runs it. -/

namespace Sys2Proof.Machine

/-- One step: the agent whose turn it is moves (00_scope.md R9, 20_memory.md R50). -/
def step (s : State) : Host.Outcome State Fault Refusal :=
  s.takeTurn.runTurn s.nextTurn

/-- The state whose next step runs the opcode-table word `w` of `nbits` bits (log 21, log 22). -/
def State.withFetchWord (s : State) (nbits w : Nat) : State :=
  if nbits ≤ 8 then s.withPhaseKey (BitVec.ofNat 6 w) else s.withCommand (BitVec.ofNat 32 w)

end Sys2Proof.Machine
end

