-- ==== Sys2Proof/WellFormed.lean ====
section
/-! DEFINITION. The checks on what is put to the machine. An instruction has no operand field (30_encoding.md
R63), so that each one is well-formed; a word is checked against its format's opcode map (R64 to R66) and a
host access against 20_memory.md R52 and R53. -/

namespace Sys2Proof

/-- Every operation is well-formed: the formats have no operand field (R62, R63, R66). -/
def Instr.wellFormed : Instr → Bool
  | .configure => true
  | .play => true
  | .pause => true
  | .emitFullF1P1 => true
  | .emitFullF1P2 => true
  | .emitFullF1P3 => true
  | .emitFullF1P4 => true
  | .emitHalfF2P1 => true
  | .emitFullF2P2 => true
  | .emitFullF2P3 => true
  | .emitFullF2P4 => true
  | .emitQuarterF4P1 => true
  | .emitHalfF4P2 => true
  | .emit3QuarterF4P3 => true
  | .emitFullF4P4 => true

/-- A word is well-formed when its reserved bits are 0 and its operation is not reserved (R62, R65), or when
its key has a legal factor and a phase from 1 to 4 (R66). -/
def CodeWord.wellFormed : CodeWord → Bool
  | .cmd word => word.extractLsb' 2 30 == 0#30 && word.extractLsb' 0 2 != 0#2
  | .phase key =>
    let factor := key.extractLsb' 3 3
    let p := key.extractLsb' 0 3
    (factor == 1#3 || factor == 2#3 || factor == 4#3) && (1#3).ule p && p.ule 4#3

/-- An access is legal only as a whole-word write at one of the three offsets (R53). -/
def HostAccess.wellFormed : HostAccess → Bool
  | .write offset width _ => width == .word && (offset == 0#32 || offset == 4#32 || offset == 8#32)
  | .read _ _ => false

end Sys2Proof
end

