-- ==== Sys2Proof/Safety.lean ====
section
/-! DEFINITION. What claims speak of: the invariant of the machine, the preconditions the host and the platform
must keep (70_reset_and_hazards.md R162 to R173), hangs (60_exceptions.md R155), runs and fairness (R181). -/

namespace Sys2Proof.Machine

/-- A legal oversampling factor (R4, R18). -/
abbrev legalFactor (factor : Phase) : Prop :=
  factor = 1#3 ∨ factor = 2#3 ∨ factor = 4#3

/-- What holds of the machine between any two steps, from reset on. The clauses on a register that reset leaves
unspecified hold once a `CONFIGURE` or an emission has written it, so that none rests on log 5. -/
structure Inv (s : State) : Prop where
  /-- sample memory is in canonical form -/
  memory_canonical : s.mem.wf = true
  /-- the clock generator is on exactly when a `CONFIGURE` has enabled the interrupt (R83, R143) -/
  clock_on_iff_configured : s.clkGen.enable = s.irqEnable
  /-- what a `CONFIGURE` leaves (R18, R20, R22, R23, R88) -/
  configured : s.irqEnable = true → legalFactor s.factor ∧ 1 ≤ s.top.toNat ∧ s.timerMode = .mfrq ∧
    s.prescaler = .x1 ∧ s.dacResolution = .bits10 ∧ s.irqPriority = .highest
  /-- the timer is armed only after a `CONFIGURE` (R162) -/
  armed_only_configured : s.timerEnable = true → s.irqEnable = true
  /-- a tick is pending only after a `CONFIGURE` (R101, R162) -/
  pending_only_configured : s.ovfPending = true → s.irqEnable = true
  /-- the stored phase is at most 3 (R15) -/
  phase_range : s.phaseCounter.toNat ≤ 3
  /-- the sample index never holds 0 (R14) -/
  index_from_one : 1 ≤ s.sampleIndex.toNat
  /-- the sample index has room for its increment (R14) -/
  index_room : s.engineState = .idle → s.sampleIndex.toNat + 1 < 2 ^ 32
  /-- a window in progress has made an emission (R114, R116 to R118) -/
  window_has_emitted : s.phaseCounter ≠ 0#3 → s.trace ≠ []
  /-- the cached samples are multiples of 4 (R16) -/
  samples_rescaled : s.trace ≠ [] → s.currentValue.toNat % 4 = 0 ∧ s.previousValue.toNat % 4 = 0
  /-- the DAC holds the last emitted value (R30, R133) -/
  dac_holds_last : s.trace ≠ [] → s.trace.getLast? = some s.dacData
  /-- every emitted value lies in 0 .. 1020 (R123) -/
  trace_range : ∀ v ∈ s.trace, v.toNat ≤ 1020
  /-- the state of the wait at end of buffer (R115) -/
  stopping : s.engineState = .waitSync → s.timerEnable = false ∧ s.ovfPending = true ∧
    s.phaseCounter = 0#3 ∧ s.bufferLength.toNat ≤ s.sampleIndex.toNat
  /-- the host waits only for a synchronisation in progress (R32) -/
  host_waits_for_sync : s.hostBusy = true → s.syncBusy = true
  /-- a synchronisation in progress has a waiter: the host or the engine (R32, R84, R95, R115) -/
  sync_has_waiter : s.syncBusy = true → s.hostBusy = true ∨ s.engineState = .waitSync

/-- A rate the hardware can program: no frequency of 0 and a top value in 1 .. 2^16 - 1 (R170). -/
abbrev State.legalRate (s : State) : Prop :=
  s.arg0 ≠ 0#32 ∧ 1 ≤ s.requestedTop ∧ s.requestedTop < 2 ^ 16

/-- The invariant the source states and the hardware does not check (R17, C6). -/
abbrev State.positionInBuffer (s : State) : Prop :=
  1 ≤ s.sampleIndex.toNat ∧ s.sampleIndex.toNat < s.bufferLength.toNat

/-- The buffer is valid: every element holds a byte (R47, R164). -/
def State.bufferPlaced (s : State) : Prop :=
  ∀ i : Word, i.toNat < s.bufferLength.toNat → (s.mem.read (s.elementAddr i).toNat).isSome

/-- The buffer holds these bytes, element 0 first, and is exactly as long (R41). -/
def State.bufferHolds (s : State) (bytes : List Byte) : Prop :=
  s.bufferLength.toNat = bytes.length ∧
    ∀ i : Word, i.toNat < bytes.length → s.mem.read (s.elementAddr i).toNat = bytes[i.toNat]?

/-- A platform action that leaves the installed buffer alone (R164, R165). -/
def State.leavesBufferAlone (s : State) : PlatformAction → Prop
  | .place addr _ => ∀ i : Word, i.toNat < s.bufferLength.toNat → addr ≠ s.elementAddr i
  | .release addr => ∀ i : Word, i.toNat < s.bufferLength.toNat → addr ≠ s.elementAddr i
  | .reset => False

/-- The engine deadline, for a step of `ENGINE_CYCLES` base-clock cycles (R163; log 19). -/
abbrev State.deadlineMet (s : State) (engineCycles : Nat) : Prop :=
  engineCycles < s.top.toNat

/-- A safe point for `CONFIGURE`: disarmed, at a window boundary, the engine idle (R169). -/
abbrev State.atRest (s : State) : Prop :=
  s.timerEnable = false ∧ s.phaseCounter = 0#3 ∧ s.engineState = .idle

/-- The host may change the buffer: the timer is disarmed (R166). -/
abbrev State.mayChangeBuffer (s : State) : Prop :=
  s.timerEnable = false

/-- The turns the hardware itself would give: an enabled engine step goes before the host (R110, R145). A model
admits every other order too (D16). -/
abbrev State.hardwareOrder (s : State) : Prop :=
  s.nextTurn = .host → s.interruptReady = false

/-- The host waits for a synchronisation (R155). -/
abbrev State.hostWaiting (s : State) : Prop :=
  s.hostBusy = true

/-- The engine waits for a synchronisation, and with it the whole block (R155). -/
abbrev State.blockWaiting (s : State) : Prop :=
  s.engineState = .waitSync ∧ s.syncBusy = true

/-- A number of steps of the machine, stopping at the first that answers no next state. -/
def runSteps : Nat → State → Host.Outcome State Fault Refusal
  | 0, s => .next s
  | n + 1, s =>
    match step s with
    | .next t => runSteps n t
    | .fault f => .fault f
    | .refused r => .refused r

/-- An endless run of the machine. -/
def IsRun (r : Nat → State) : Prop :=
  ∀ n, step (r n) = .next (r (n + 1))

/-- `SYNC_FAIR` for a run: a synchronisation that stays in progress gets its turn (R104, R181; log 19). -/
def SyncFair (r : Nat → State) : Prop :=
  ∀ n, (∀ m, n ≤ m → (r m).syncBusy = true) → ∃ m, n ≤ m ∧ (r m).nextTurn = .syncComplete

/-- Weak fairness of the timer: an armed timer ticks (R101, R181). -/
def TickFair (r : Nat → State) : Prop :=
  ∀ n, (∀ m, n ≤ m → (r m).timerEnable = true) → ∃ m, n ≤ m ∧ (r m).nextTurn = .tick

/-- Weak fairness of the engine: an enabled engine step runs (R110, R181). DEDUCED (log 25): part B of the stop,
a separate step of the engine once its synchronisation is over (R115), is covered too. R181 does not say so; the
pass would otherwise not end. Unsafe for a claim that part B is taken. -/
def EngineFair (r : Nat → State) : Prop :=
  ∀ n, (∀ m, n ≤ m → (r m).engineReady = true) → ∃ m, n ≤ m ∧ (r m).nextTurn = .engine

/-- No reset of the platform falls in a run (R160). -/
def NoReset (r : Nat → State) : Prop :=
  ∀ n, ¬ ((r n).nextTurn = .platform ∧ (r n).platformQueue.head? = some .reset)

/-- The same sample memory, byte by byte. -/
def sameMemory (s t : State) : Prop :=
  ∀ a : Nat, t.mem.read a = s.mem.read a

/-- The emissions of one window between two rescaled samples (R124). -/
def windowEmissions (factor : Phase) (current previous : Byte) : List Nat :=
  let c := 4 * current.toNat
  let p := 4 * previous.toNat
  if factor = 4#3 then [(c + 3 * p) / 4, (c + p) / 2, (3 * c + p) / 4, c]
  else if factor = 2#3 then [(c + p) / 2, c]
  else [c]

/-- The emissions of a complete pass: windows 1 .. N-1 in order (R126). -/
def passEmissions (factor : Phase) : List Byte → List Nat
  | [] => []
  | [_] => []
  | previous :: current :: rest =>
    windowEmissions factor current previous ++ passEmissions factor (current :: rest)

end Sys2Proof.Machine
end

