-- ==== Sys2Proof/Certificates/Slice0/Obligations.lean ====
section
/-! DEFINITION. The statements about the machine, for the provers. A frame is written `t = { s with f := …, … }`:
every field that is not named is as in `s`, and a field written `f := t.f` may hold anything. `sameMemory`
says of sample memory, byte by byte, what the record already says. -/

open Sys2Proof Sys2Proof.Machine

/-! ### Reset -/

/-- 10_state.md R34: every value the table gives. The registers it calls unspecified are left out; the values
the model gives them are log 5. -/
def Obligations.ResetGivesTheTabledValues : Prop :=
  let r := State.reset
  r.sampleIndex = 1#32 ∧ r.phaseCounter = 0#3 ∧ r.clkGen.enable = false ∧ r.irqEnable = false ∧
    r.timerEnable = false ∧ r.ovfPending = false ∧ r.syncBusy = false ∧ r.trace = [] ∧
    r.engineState = .idle ∧ r.hostBusy = false

/-- R161: after reset no `TICK`, no engine step and no `SYNC_COMPLETE` is enabled, the host may issue a command,
the position is index 1, phase 0, and the trace is empty and stays so until an engine step. -/
def Obligations.ResetIsQuiescent : Prop :=
  State.reset.tickTurn = State.reset ∧ State.reset.interruptReady = false ∧
    State.reset.engineTurn = .next State.reset ∧ State.reset.syncTurn = State.reset ∧
    State.reset.hostReady = true ∧
    State.reset.sampleIndex = 1#32 ∧ State.reset.phaseCounter = 0#3 ∧ State.reset.trace = [] ∧
    ∀ s t : State, step s = .next t → s.nextTurn ≠ .engine → s.trace = [] → t.trace = []

/-- R160, log 8: a reset by the platform puts the block's registers at their reset values, whatever the state,
and leaves sample memory alone. That the platform's memory and queues survive it is the model's choice (log 8). -/
def Obligations.PlatformResetRestoresTheBlock : Prop :=
  ∀ (s : State) (rest : List Turn) (queue : List PlatformAction),
    s.turns = .platform :: rest → s.platformQueue = .reset :: queue →
    ∃ t, step s = .next t ∧
      t = { State.reset with mem := s.mem, hostQueue := s.hostQueue, platformQueue := queue, turns := rest,
                             turnDraws := s.turnDraws, countDraws := s.countDraws, baseClockHz := s.baseClockHz } ∧
      sameMemory s t

/-! ### Decoding -/

/-- R64, R65: the three words of the map and no other. -/
def Obligations.CommandWordsDecode : Prop :=
  ∀ w : Word, decode (.cmd w) =
    if w = 0x00000001#32 then .ok .configure
    else if w = 0x00000002#32 then .ok .play
    else if w = 0x00000003#32 then .ok .pause
    else .error (.reservedCommand w)

/-- R62, R64 to R66: encoding and decoding are inverse to each other over every operation and every word of both
formats, and the words that decode are exactly those whose fields are legal (reserved bits 0 and a non-zero
operation, or a legal factor and a phase from 1 to 4). -/
def Obligations.DecodeAndEncodeAgree : Prop :=
  (∀ i : Instr, i.wellFormed = true → decode (encode i) = .ok i) ∧
    (∀ (c : CodeWord) (i : Instr), decode c = .ok i → encode i = c) ∧
    (∀ c : CodeWord, c.wellFormed = true ↔ ∃ i, decode c = .ok i)

/-- R66, R113: on every pair of a legal factor and a phase from 1 to 4 there is a row, and executing it does what
the priority-ordered tests pick. -/
def Obligations.PhaseRowsFollowTheDecisionTable : Prop :=
  ∀ (f p : Phase), legalFactor f → 1 ≤ p.toNat → p.toNat ≤ 4 →
    ∃ i, decode (.phase (f ++ p)) = .ok i ∧
      ∀ s : State, exec i s = .next
        (if f.toNat ≤ p.toNat then s.emitFull
         else if p.toNat * 2 = f.toNat then s.emitHalf
         else if p.toNat * 4 = f.toNat then s.emitQuarter
         else s.emitThreeQuarter)

/-- Words written out from the encoding tables of R64 and R66. -/
def Obligations.TableWordsDecodeToTheirRows : Prop :=
  decodeTableWord 32 0x00000001 = some .configure ∧ decodeTableWord 32 0x00000002 = some .play ∧
    decodeTableWord 32 0x00000003 = some .pause ∧ decodeTableWord 8 0b010011 = some .emitFullF2P3 ∧
    decodeTableWord 8 0b010001 = some .emitHalfF2P1 ∧ decodeTableWord 8 0b100001 = some .emitQuarterF4P1 ∧
    decodeTableWord 8 0b100011 = some .emit3QuarterF4P3 ∧ decodeTableWord 8 0b100100 = some .emitFullF4P4

/-! ### A step runs the decoded instruction -/

/-- R61: when the host has the turn and its port is free, a `CMD` write that decodes runs that command, with the
turn and the access taken. -/
def Obligations.HostTurnRunsTheDecodedCommand : Prop :=
  ∀ (s : State) (w : Word) (i : Instr) (rest : List Turn) (queue : List HostAccess),
    s.turns = .host :: rest → s.hostBusy = false → s.engineState = .idle →
    s.hostQueue = .write 8#32 .word w :: queue → decode (.cmd w) = .ok i → i.wellFormed = true →
    step s = exec i { s with turns := rest, hostQueue := queue }

/-- R110 to R120: when the engine has the turn and the interrupt is ready, the step loads the window if one
starts, increments the phase, runs the row of the key, and ends with the flag clear. -/
def Obligations.EngineTurnRunsTheDecodedRow : Prop :=
  ∀ (s loaded t : State) (i : Instr) (rest : List Turn),
    s.turns = .engine :: rest → s.interruptReady = true →
    State.loadWindow { s with turns := rest } = .ok loaded →
    decode (.phase (loaded.factor ++ (loaded.phaseCounter + 1))) = .ok i → i.wellFormed = true →
    exec i { loaded with phaseCounter := loaded.phaseCounter + 1 } = .next t →
    step s = .next (match t.engineState with
      | .idle => { t with ovfPending := false }
      | .waitSync => t)

/-! ### CONFIGURE -/

/-- R81 to R84, R86: at a legal rate `CONFIGURE` answers a next state with the coerced factor, the truncated
quotient by the exact product as `top`, the fixed settings, and the host waiting; it writes nothing else. -/
def Obligations.ConfigureProgramsTheTimer : Prop :=
  ∀ s : State,
    let factor := if s.arg1 = 1#32 ∨ s.arg1 = 2#32 ∨ s.arg1 = 4#32 then s.arg1.toNat else 1
    let quotient := s.baseClockHz / (s.arg0.toNat * factor)
    s.arg0 ≠ 0#32 → 1 ≤ quotient → quotient < 2 ^ 16 →
    ∃ t, exec .configure s = .next t ∧
      t.factor.toNat = factor ∧ t.top.toNat = quotient ∧
      t = { s with
        factor := t.factor, top := t.top, dacResolution := .bits10
        clkGen := { div := Config.clkDiv, src := Config.clkSrc, enable := true }
        irqPriority := .highest, irqEnable := true, timerMode := .mfrq, prescaler := .x1
        syncBusy := true, hostBusy := true, count := t.count, countDraws := s.countDraws + 1 } ∧
      sameMemory s t

/-- R81, the source's `configure(8000, 3)` against `configure(8000, 1)`: with an oversampling outside 1, 2, 4 the
command has the outcome it has with 1, but for `ARG1` itself. -/
def Obligations.ConfigureTreatsOtherFactorsAsOne : Prop :=
  ∀ s : State, s.arg1 ≠ 1#32 → s.arg1 ≠ 2#32 → s.arg1 ≠ 4#32 →
    match exec .configure { s with arg1 := 1#32 } with
    | .next t => exec .configure s = .next { t with arg1 := s.arg1 }
    | .fault f => exec .configure s = .fault f
    | .refused r => exec .configure s = .refused r

/-- R80, R88 (U1, U2, U3): a frequency of 0, a product above the base clock (top value 0), and a top value of
2^16 or more are refused. -/
def Obligations.ConfigureRefusesIllegalRates : Prop :=
  ∀ s : State,
    let factor := if s.arg1 = 1#32 ∨ s.arg1 = 2#32 ∨ s.arg1 = 4#32 then s.arg1.toNat else 1
    (s.arg0 = 0#32 → exec .configure s = .refused .zeroSampleFrequency) ∧
    (s.arg0 ≠ 0#32 → s.baseClockHz < s.arg0.toNat * factor → exec .configure s = .refused .topValueZero) ∧
    (s.arg0 ≠ 0#32 → 2 ^ 16 ≤ s.baseClockHz / (s.arg0.toNat * factor) →
      exec .configure s = .refused .topValueTooLarge)

/-- R82, R100, R102: the achieved rate `BASE_CLOCK_HZ / top` is not below the requested `f × factor`, and one
more cycle a period would put it below. -/
def Obligations.ConfiguredRateIsSlightlyHigh : Prop :=
  ∀ s t : State, exec .configure s = .next t →
    t.top.toNat * (s.arg0.toNat * t.factor.toNat) ≤ s.baseClockHz ∧
      s.baseClockHz < (t.top.toNat + 1) * (s.arg0.toNat * t.factor.toNat)

/-! ### PLAY and PAUSE -/

/-- R90, R91, R55: after a `CONFIGURE`, `PLAY` installs reference and length, arms the timer and makes the host
wait; it keeps the position, the cached samples and all else, and checks no operand. -/
def Obligations.PlayInstallsTheBufferAndArms : Prop :=
  ∀ s : State, s.irqEnable = true →
    ∃ t, exec .play s = .next t ∧
      t = { s with bufferRef := s.arg0, bufferLength := s.arg1, timerEnable := true, syncBusy := true,
                   hostBusy := true, count := t.count, countDraws := s.countDraws + 1 } ∧
      sameMemory s t

/-- R162, U10: `PLAY` before any `CONFIGURE` is refused. That the model knows it by `irqEnable = 0`, which only
`CONFIGURE` sets, is its choice (log 12). -/
def Obligations.PlayBeforeConfigureIsRefused : Prop :=
  ∀ s : State, s.irqEnable = false → exec .play s = .refused .playBeforeConfigure

/-- R92: a second `PLAY` with the operands of the first changes nothing but the wait for synchronisation and the
counter, which is unspecified after every arm. -/
def Obligations.PlayAgainChangesNothingElse : Prop :=
  ∀ s : State, s.irqEnable = true → s.timerEnable = true → s.bufferRef = s.arg0 → s.bufferLength = s.arg1 →
    ∃ t, exec .play s = .next t ∧
      t = { s with syncBusy := true, hostBusy := true, count := t.count, countDraws := s.countDraws + 1 }

/-- R93, R94: `PAUSE` clears the timer enable and makes the host wait, in every state; position, cached samples,
pending tick and all else stay. -/
def Obligations.PauseOnlyDisarms : Prop :=
  ∀ s : State, ∃ t, exec .pause s = .next t ∧
    t = { s with timerEnable := false, syncBusy := true, hostBusy := true, count := t.count,
                 countDraws := s.countDraws + 1 } ∧
    sameMemory s t

/-- R96: `PAUSE`, its synchronisation, `PLAY` with the same buffer and its synchronisation give back the state
they started from, but for the counter. -/
def Obligations.PauseThenPlayResumes : Prop :=
  ∀ s : State, s.irqEnable = true → s.timerEnable = true → s.syncBusy = false → s.hostBusy = false →
    s.bufferRef = s.arg0 → s.bufferLength = s.arg1 →
    ∃ t u, exec .pause s = .next t ∧ exec .play t.syncTurn = .next u ∧
      u.syncTurn = { s with count := u.count, countDraws := s.countDraws + 2 }

/-- R96, R106: an engine step computes, emits and reads the same whatever `timerEnable`, `count` and the
synchronisation bits hold, so that no interruption shows in the trace. -/
def Obligations.EngineStepIgnoresTheTimer : Prop :=
  ∀ (s : State) (enable busy waiting : Bool) (count : TimerWord) (draws : Nat),
    let s' := { s with timerEnable := enable, syncBusy := busy, hostBusy := waiting, count := count,
                       countDraws := draws }
    match s.engineStep with
    | .next t => ∃ t', s'.engineStep = .next t' ∧ t'.trace = t.trace ∧ t'.dacData = t.dacData ∧
        t'.reads = t.reads ∧ t'.sampleIndex = t.sampleIndex ∧ t'.phaseCounter = t.phaseCounter ∧
        t'.currentValue = t.currentValue ∧ t'.previousValue = t.previousValue ∧
        t'.engineState = t.engineState ∧ t'.ovfPending = t.ovfPending
    | .fault f => s'.engineStep = .fault f
    | .refused r => s'.engineStep = .refused r

/-- R106, R173: a tick pending when `PAUSE` is accepted is still served, with the emission it would have had. -/
def Obligations.PendingTickSurvivesPause : Prop :=
  ∀ s paused t : State, s.interruptReady = true → exec .pause s = .next paused → s.engineStep = .next t →
    paused.timerEnable = false ∧ paused.interruptReady = true ∧
      ∃ t', paused.engineStep = .next t' ∧ t'.trace = t.trace

/-! ### The emit micro-operations -/

/-- R114, R115 part A: every `EMIT_FULL` row emits the real sample, sets the phase to 0 and increments the
index; where the incremented index reaches the buffer length (unsigned) it also disarms the timer and waits
for synchronisation. No other register is written. -/
def Obligations.EmitFullEndsTheWindow : Prop :=
  ∀ i ∈ [Instr.emitFullF1P1, .emitFullF1P2, .emitFullF1P3, .emitFullF1P4, .emitFullF2P2, .emitFullF2P3,
      .emitFullF2P4, .emitFullF4P4],
    ∀ s : State, ∃ t, exec i s = .next t ∧
      ((s.sampleIndex + 1).toNat < s.bufferLength.toNat →
        t = { s with dacData := s.currentValue, trace := s.trace ++ [s.currentValue], phaseCounter := 0#3,
                     sampleIndex := s.sampleIndex + 1 }) ∧
      (s.bufferLength.toNat ≤ (s.sampleIndex + 1).toNat →
        t = { s with dacData := s.currentValue, trace := s.trace ++ [s.currentValue], phaseCounter := 0#3,
                     sampleIndex := s.sampleIndex + 1, timerEnable := false, syncBusy := true,
                     engineState := .waitSync, count := t.count, countDraws := s.countDraws + 1 }) ∧
      sameMemory s t

/-- R116: `EMIT_HALF` emits the truncated half of the sum, formed exactly in 12 bits; it writes nothing else; its
rows are the keys (2, 1) and (4, 2); equal samples give that sample; on rescaled samples the sum is at most
2040 and the division exact. -/
def Obligations.EmitHalfEmitsTheMidpoint : Prop :=
  (∀ i ∈ [Instr.emitHalfF2P1, .emitHalfF4P2], ∀ s : State,
    let c := s.currentValue.toNat
    let p := s.previousValue.toNat
    ∃ t, exec i s = .next t ∧ t.dacData.toNat = (c + p) / 2 ∧ t.trace = s.trace ++ [t.dacData] ∧
      t = { s with dacData := t.dacData, trace := t.trace } ∧ sameMemory s t ∧
      c + p < 2 ^ 12 ∧ (c = p → t.dacData = s.currentValue) ∧
      (c % 4 = 0 → p % 4 = 0 → c + p ≤ 2040 ∧ t.dacData.toNat * 2 = c + p)) ∧
  ∀ f p : Phase, (decode (.phase (f ++ p)) = .ok .emitHalfF2P1 ↔ f = 2#3 ∧ p = 1#3) ∧
    (decode (.phase (f ++ p)) = .ok .emitHalfF4P2 ↔ f = 4#3 ∧ p = 2#3)

/-- R117: `EMIT_QUARTER` emits the truncated quarter of `C + 3P`, formed exactly in 12 bits; it writes nothing
else; its one row is the key (4, 1); on rescaled samples the sum is at most 4080. -/
def Obligations.EmitQuarterEmitsTheFirstQuarter : Prop :=
  (∀ s : State,
    let c := s.currentValue.toNat
    let p := s.previousValue.toNat
    ∃ t, exec .emitQuarterF4P1 s = .next t ∧ t.dacData.toNat = (c + 3 * p) / 4 ∧
      t.trace = s.trace ++ [t.dacData] ∧ t = { s with dacData := t.dacData, trace := t.trace } ∧
      sameMemory s t ∧ c + 3 * p < 2 ^ 12 ∧ (c % 4 = 0 → p % 4 = 0 → c + 3 * p ≤ 4080)) ∧
  ∀ f p : Phase, decode (.phase (f ++ p)) = .ok .emitQuarterF4P1 ↔ f = 4#3 ∧ p = 1#3

/-- R118: `EMIT_3QUARTER` emits the truncated quarter of `3C + P`, formed exactly in 12 bits; it writes nothing
else; its one row is the key (4, 3); on rescaled samples the sum is at most 4080. -/
def Obligations.EmitThreeQuarterEmitsTheThirdQuarter : Prop :=
  (∀ s : State,
    let c := s.currentValue.toNat
    let p := s.previousValue.toNat
    ∃ t, exec .emit3QuarterF4P3 s = .next t ∧ t.dacData.toNat = (3 * c + p) / 4 ∧
      t.trace = s.trace ++ [t.dacData] ∧ t = { s with dacData := t.dacData, trace := t.trace } ∧
      sameMemory s t ∧ 3 * c + p < 2 ^ 12 ∧ (c % 4 = 0 → p % 4 = 0 → 3 * c + p ≤ 4080)) ∧
  ∀ f p : Phase, decode (.phase (f ++ p)) = .ok .emit3QuarterF4P3 ↔ f = 4#3 ∧ p = 3#3

/-- R122: with `C = 4c` and `P = 4p` the rows emit `c + 3p`, `2c + 2p`, `3c + p` and `4c`, the truncating
divisions discarding nothing. -/
def Obligations.InterpolationDivisionsAreExact : Prop :=
  ∀ (s t : State) (c p : Byte), s.currentValue.toNat = 4 * c.toNat → s.previousValue.toNat = 4 * p.toNat →
    (exec .emitQuarterF4P1 s = .next t → t.dacData.toNat = c.toNat + 3 * p.toNat ∧
      t.dacData.toNat * 4 = s.currentValue.toNat + 3 * s.previousValue.toNat) ∧
    (exec .emitHalfF2P1 s = .next t ∨ exec .emitHalfF4P2 s = .next t →
      t.dacData.toNat = 2 * c.toNat + 2 * p.toNat ∧
      t.dacData.toNat * 2 = s.currentValue.toNat + s.previousValue.toNat) ∧
    (exec .emit3QuarterF4P3 s = .next t → t.dacData.toNat = 3 * c.toNat + p.toNat ∧
      t.dacData.toNat * 4 = 3 * s.currentValue.toNat + s.previousValue.toNat) ∧
    (∀ i ∈ [Instr.emitFullF1P1, .emitFullF1P2, .emitFullF1P3, .emitFullF1P4, .emitFullF2P2, .emitFullF2P3,
        .emitFullF2P4, .emitFullF4P4], exec i s = .next t → t.dacData.toNat = 4 * c.toNat)

/-- R123: on rescaled samples every row emits a value between the previous and the current sample, at most 1020,
and so never 1023. -/
def Obligations.EmittedValuesLieBetweenTheSamples : Prop :=
  ∀ (i : Instr) (s t : State), i ≠ .configure → i ≠ .play → i ≠ .pause →
    s.currentValue.toNat % 4 = 0 → s.previousValue.toNat % 4 = 0 → exec i s = .next t →
    min s.currentValue.toNat s.previousValue.toNat ≤ t.dacData.toNat ∧
      t.dacData.toNat ≤ max s.currentValue.toNat s.previousValue.toNat ∧
      t.dacData.toNat ≤ 1020 ∧ t.dacData ≠ 1023#10

/-! ### The engine step -/

/-- R111, R42: at phase 0 the load reads the bytes at `bufferRef + sampleIndex` and the one before, modulo 2^32,
in that order, and latches four times each; at any other phase it reads and changes nothing. -/
def Obligations.WindowLoadLatchesBothSamples : Prop :=
  ∀ s : State,
    (s.phaseCounter ≠ 0#3 → s.loadWindow = .ok s) ∧
    ∀ c p : Byte, s.phaseCounter = 0#3 → 1 ≤ s.sampleIndex.toNat →
      s.sampleIndex.toNat < s.bufferLength.toNat →
      s.mem.read ((s.bufferRef.toNat + s.sampleIndex.toNat) % 2 ^ 32) = some c →
      s.mem.read ((s.bufferRef.toNat + s.sampleIndex.toNat - 1) % 2 ^ 32) = some p →
      ∃ t, s.loadWindow = .ok t ∧ t.currentValue.toNat = 4 * c.toNat ∧ t.previousValue.toNat = 4 * p.toNat ∧
        t.reads = s.reads ++ [s.bufferRef + s.sampleIndex, s.bufferRef + s.sampleIndex - 1] ∧
        t = { s with currentValue := t.currentValue, previousValue := t.previousValue, reads := t.reads }

/-- R46, R167, R168 (U5): an engine step that would load from outside the buffer faults, and names the current
element (log 9); and, the model's choice (log 7), one that would load a byte the platform has not placed or has
released faults at that byte's address: the current byte's, or the previous one's where the current is placed. -/
def Obligations.ReadsOutsideTheBufferFault : Prop :=
  ∀ s : State, s.interruptReady = true → s.nextTurn = .engine → s.phaseCounter = 0#3 →
    (s.bufferLength.toNat ≤ s.sampleIndex.toNat →
      step s = .fault (.outOfBufferRead (s.bufferRef + s.sampleIndex))) ∧
    (s.sampleIndex.toNat < s.bufferLength.toNat →
      s.mem.read (s.bufferRef + s.sampleIndex).toNat = none →
      step s = .fault (.unplacedSample (s.bufferRef + s.sampleIndex))) ∧
    (1 ≤ s.sampleIndex.toNat → s.sampleIndex.toNat < s.bufferLength.toNat →
      (s.mem.read (s.bufferRef + s.sampleIndex).toNat).isSome = true →
      s.mem.read (s.bufferRef + (s.sampleIndex - 1)).toNat = none →
      step s = .fault (.unplacedSample (s.bufferRef + (s.sampleIndex - 1))))

/-- R48: in mid-window an engine step does not depend on sample memory or on which buffer is installed, as long
as its length is the same. -/
def Obligations.MidWindowStepIgnoresMemory : Prop :=
  ∀ (s t : State) (m : Memory) (ref : Word), s.phaseCounter ≠ 0#3 → s.engineStep = .next t →
    State.engineStep { s with mem := m, bufferRef := ref } = .next { t with mem := m, bufferRef := ref }

/-- R119, R132: with the machine's invariant, an enabled engine step whose load finds its samples answers a next
state and makes exactly one emission. -/
def Obligations.EngineStepEmitsExactlyOnce : Prop :=
  ∀ s : State, Inv s → s.interruptReady = true →
    (s.phaseCounter = 0#3 → s.sampleIndex.toNat < s.bufferLength.toNat ∧
      (s.mem.read (s.bufferRef + s.sampleIndex).toNat).isSome = true ∧
      (s.mem.read (s.bufferRef + (s.sampleIndex - 1)).toNat).isSome = true) →
    ∃ t v, s.engineStep = .next t ∧ t.trace = s.trace ++ [v] ∧ t.dacData = v

/-- R119: a state of the invariant never forms a key outside the table; a key on which no test matches would
emit nothing, keep the incremented phase and clear the flag. -/
def Obligations.DecisionTableNeverFallsThrough : Prop :=
  (∀ s : State, Inv s → s.interruptReady = true →
    ∃ i, decode (.phase (s.factor ++ (s.phaseCounter + 1))) = .ok i) ∧
  ∀ s : State, s.phaseCounter ≠ 0#3 → s.engineState = .idle →
    let p := (s.phaseCounter + 1).toNat
    p < s.factor.toNat → p * 2 ≠ s.factor.toNat → p * 4 ≠ s.factor.toNat → p ≠ 3 →
    s.engineStep = .next { s with phaseCounter := s.phaseCounter + 1, ovfPending := false }

/-- R120, R147: an engine step that does not end the buffer leaves the flag clear and the engine idle; one that
does keeps the flag until part B. -/
def Obligations.EngineStepClearsTheFlagOnce : Prop :=
  ∀ s t : State, s.interruptReady = true → s.engineStep = .next t →
    (t.engineState = .idle ∧ t.ovfPending = false) ∨
    (t.engineState = .waitSync ∧ t.ovfPending = true ∧ t.endStop.ovfPending = false ∧
      t.endStop.engineState = .idle)

/-- R115, R35: the stop in its two parts. Part A leaves the index past the buffer, the timer disarmed, the flag
pending and the engine waiting; after the synchronisation part B leaves index 1, phase 0, flag clear, the
timer disarmed, and the buffer, the samples and the DAC as they were. -/
def Obligations.EndOfBufferStopsInTwoParts : Prop :=
  ∀ s loaded : State, s.interruptReady = true → legalFactor s.factor → s.phaseCounter.toNat ≤ 3 →
    s.factor.toNat ≤ s.phaseCounter.toNat + 1 → s.bufferLength.toNat ≤ (s.sampleIndex + 1).toNat →
    s.loadWindow = .ok loaded →
    ∃ t u, s.engineStep = .next t ∧
      t = { loaded with
        dacData := loaded.currentValue, trace := s.trace ++ [loaded.currentValue], phaseCounter := 0#3
        sampleIndex := s.sampleIndex + 1, timerEnable := false, syncBusy := true, engineState := .waitSync
        ovfPending := true, count := t.count, countDraws := s.countDraws + 1 } ∧
      t.syncTurn.engineTurn = .next u ∧
      u = { t with syncBusy := false, hostBusy := false, sampleIndex := 1#32, ovfPending := false,
                   engineState := .idle }

/-- R127: with the stored phase at or above a lowered factor less one, the next step ends the window with the
latched sample and reads nothing. -/
def Obligations.LoweredFactorEndsTheWindow : Prop :=
  ∀ s : State, s.interruptReady = true → legalFactor s.factor → s.phaseCounter ≠ 0#3 →
    s.phaseCounter.toNat ≤ 3 → s.factor.toNat ≤ s.phaseCounter.toNat + 1 →
    ∃ t, s.engineStep = .next t ∧ t.trace = s.trace ++ [s.currentValue] ∧ t.phaseCounter = 0#3 ∧
      t.sampleIndex = s.sampleIndex + 1 ∧ t.reads = s.reads ∧ t.currentValue = s.currentValue ∧
      t.previousValue = s.previousValue

/-- R124: from the start of a window, with a constant factor, `factor` ticks each followed by its engine step
emit exactly the window's values and go to the next index at phase 0. -/
def Obligations.WindowEmitsItsInterpolation : Prop :=
  ∀ (s : State) (c p : Byte) (rest : List Turn),
    s.engineState = .idle → s.irqEnable = true → s.timerEnable = true → legalFactor s.factor →
    s.phaseCounter = 0#3 → s.sampleIndex.toNat < s.bufferLength.toNat →
    1 ≤ s.sampleIndex.toNat →
    s.mem.read (s.bufferRef + s.sampleIndex).toNat = some c →
    s.mem.read (s.bufferRef + (s.sampleIndex - 1)).toNat = some p →
    s.turns = tickTurns s.factor.toNat ++ rest →
    ∃ t, runSteps (2 * s.factor.toNat) s = .next t ∧
      t.trace.map BitVec.toNat = s.trace.map BitVec.toNat ++ windowEmissions s.factor c p ∧
      t.phaseCounter = 0#3 ∧ t.sampleIndex = s.sampleIndex + 1 ∧ t.turns = rest ∧
      (t.engineState = .waitSync ↔ s.bufferLength.toNat ≤ s.sampleIndex.toNat + 1)

/-- R126: a complete pass. From index 1, phase 0, armed, over a buffer of N ≥ 2 bytes, (N - 1) × factor ticks,
each followed by its engine step, and the synchronisation of the stop emit windows 1 to N - 1 in order,
(N - 1) × factor values in all, read 2 × (N - 1) bytes, and leave the block stopped at index 1, phase 0. -/
def Obligations.PassEmitsEveryWindowAndStops : Prop :=
  ∀ (s : State) (bytes : List Byte) (rest : List Turn),
    s.engineState = .idle → s.irqEnable = true → s.timerEnable = true → legalFactor s.factor →
    s.phaseCounter = 0#3 → s.sampleIndex = 1#32 → 2 ≤ bytes.length → s.bufferHolds bytes →
    s.turns = tickTurns ((bytes.length - 1) * s.factor.toNat) ++ .syncComplete :: .engine :: rest →
    ∃ t, runSteps (2 * ((bytes.length - 1) * s.factor.toNat) + 2) s = .next t ∧
      t.trace.map BitVec.toNat = s.trace.map BitVec.toNat ++ passEmissions s.factor bytes ∧
      t.trace.length = s.trace.length + (bytes.length - 1) * s.factor.toNat ∧
      t.reads.length = s.reads.length + 2 * (bytes.length - 1) ∧
      t.sampleIndex = 1#32 ∧ t.phaseCounter = 0#3 ∧ t.timerEnable = false ∧ t.ovfPending = false ∧
      t.engineState = .idle ∧ t.turns = rest

/-! ### The timer and the synchroniser -/

/-- R101, R103: a `TICK` sets the pending flag, set or not, and nothing else, and occurs only while the timer is
armed. -/
def Obligations.TickSetsThePendingFlag : Prop :=
  ∀ (s : State) (rest : List Turn), s.turns = .tick :: rest →
    (s.timerEnable = true → step s = .next { s with turns := rest, ovfPending := true }) ∧
    (s.timerEnable = false → step s = .next { s with turns := rest })

/-- R100: one input-clock cycle, counting or not, and a tick every `top` cycles once the counter is at 0. -/
def Obligations.TimerTicksEveryTopCycles : Prop :=
  (∀ (s : State) (rest : List Turn), s.turns = .clockCycle :: rest →
    (s.timerEnable = true ∧ s.clkGen.enable = true ∧ s.timerMode = .mfrq →
      (s.top.toNat ≤ s.count.toNat + 1 →
        step s = .next { s with turns := rest, count := 0#16, ovfPending := true }) ∧
      (s.count.toNat + 1 < s.top.toNat →
        step s = .next { s with turns := rest, count := s.count + 1 })) ∧
    (¬ (s.timerEnable = true ∧ s.clkGen.enable = true ∧ s.timerMode = .mfrq) →
      step s = .next { s with turns := rest })) ∧
  ∀ s : State, s.timerCounts = true → s.count = 0#16 → 1 ≤ s.top.toNat →
    (∀ k, k < s.top.toNat → State.clockTurn^[k] s = { s with count := BitVec.ofNat 16 k }) ∧
    State.clockTurn^[s.top.toNat] s = { s with ovfPending := true }

/-- R105: whatever the unspecified counter holds, the first tick comes after 1 to `top` cycles. -/
def Obligations.FirstTickComesWithinTopCycles : Prop :=
  ∀ s : State, s.timerCounts = true → 1 ≤ s.top.toNat → s.ovfPending = false →
    ∃ k, 1 ≤ k ∧ k ≤ s.top.toNat ∧ (∀ j, j < k → (State.clockTurn^[j] s).ovfPending = false) ∧
      (State.clockTurn^[k] s).ovfPending = true ∧ (State.clockTurn^[k] s).count = 0#16

/-- R104: `SYNC_COMPLETE` ends the synchronisation and the host's wait and does nothing else; without a
synchronisation in progress it does not occur. -/
def Obligations.SyncCompleteEndsTheWait : Prop :=
  ∀ (s : State) (rest : List Turn), s.turns = .syncComplete :: rest →
    (s.syncBusy = true → step s = .next { s with turns := rest, syncBusy := false, hostBusy := false }) ∧
    (s.syncBusy = false → step s = .next { s with turns := rest })

/-- R84, R95, R104: in a run in which a synchronisation in progress gets its turn (`SYNC_FAIR`), every command
completes. -/
def Obligations.FairSynchronisationFreesTheHost : Prop :=
  ∀ r : Nat → State, IsRun r → Inv (r 0) → SyncFair r →
    ∀ n, (r n).hostBusy = true → ∃ m, n ≤ m ∧ (r m).hostBusy = false

/-- R32, R115, R155: while the engine waits for its synchronisation, every turn but the synchroniser's and the
platform's passes with no effect: the block is dead until the synchronisation completes. -/
def Obligations.WaitingBlockIsDead : Prop :=
  ∀ s : State, Inv s → s.engineState = .waitSync → s.syncBusy = true →
    s.nextTurn ≠ .syncComplete → s.nextTurn ≠ .platform → step s = .next s.takeTurn

/-! ### The host port and the platform -/

/-- R53, log 23: an access is held while the host is busy or the engine waits, the host's queue staying as it is.
R53 says so of writes to the three registers; that an illegal access is held too is the model's choice (log 23). Once
both are over, a whole-word write to `ARG0`, to `ARG1` or of a command to `CMD` takes effect, and an access that is
no whole-word write to one of the three offsets is refused. -/
def Obligations.HostAccessesAreHeldTakenOrRefused : Prop :=
  ∀ (s : State) (rest : List Turn) (a : HostAccess) (queue : List HostAccess),
    s.turns = .host :: rest → s.hostQueue = a :: queue →
    (s.hostBusy = true ∨ s.engineState = .waitSync → step s = .next { s with turns := rest }) ∧
    (s.hostBusy = false → s.engineState = .idle →
      (∀ v, a = .write 0#32 .word v → step s = .next { s with turns := rest, hostQueue := queue, arg0 := v }) ∧
      (∀ v, a = .write 4#32 .word v → step s = .next { s with turns := rest, hostQueue := queue, arg1 := v }) ∧
      (∀ w i, a = .write 8#32 .word w → decode (.cmd w) = .ok i →
        step s = exec i { s with turns := rest, hostQueue := queue }) ∧
      (a.wellFormed = false → step s = .refused .illegalHostAccess))

/-- R65: a write to `CMD` of any word but the three commands is refused. -/
def Obligations.ReservedCommandsAreRefused : Prop :=
  ∀ (s : State) (rest : List Turn) (w : Word) (queue : List HostAccess),
    s.turns = .host :: rest → s.hostQueue = .write 8#32 .word w :: queue →
    s.hostBusy = false → s.engineState = .idle →
    w ≠ 0x00000001#32 → w ≠ 0x00000002#32 → w ≠ 0x00000003#32 →
    step s = .refused (.reservedCommand w)

/-- R50: a byte the platform places is what its address reads as from then on, every other address reading as
before; after a release (of a canonical memory) the address reads as nothing. No register changes. -/
def Obligations.PlatformWritesAreReadBack : Prop :=
  ∀ (s : State) (rest : List Turn) (queue : List PlatformAction) (addr : Word) (v : Byte),
    s.turns = .platform :: rest →
    (s.platformQueue = .place addr v :: queue →
      ∃ t, step s = .next t ∧ t.mem.read addr.toNat = some v ∧
        (∀ a, a ≠ addr.toNat → t.mem.read a = s.mem.read a) ∧
        t = { s with turns := rest, platformQueue := queue, mem := t.mem }) ∧
    (s.platformQueue = .release addr :: queue → s.mem.wf = true →
      ∃ t, step s = .next t ∧ t.mem.read addr.toNat = none ∧
        (∀ a, a ≠ addr.toNat → t.mem.read a = s.mem.read a) ∧
        t = { s with turns := rest, platformQueue := queue, mem := t.mem })

/-! ### Rules of the whole machine -/

/-- The invariant holds at reset. -/
def Obligations.ResetMeetsTheInvariant : Prop :=
  Inv State.reset

/-- Every step of every agent keeps the invariant (R14 to R18, R30, R32, R115, R123, R143, R161, R162). -/
def Obligations.StepKeepsTheInvariant : Prop :=
  ∀ s t : State, Inv s → step s = .next t → Inv t

/-- R45: no step of the block, the host, the timer, the engine or the synchroniser writes sample memory. -/
def Obligations.OnlyThePlatformWritesMemory : Prop :=
  ∀ s t : State, step s = .next t → s.nextTurn ≠ .platform → t.mem = s.mem ∧ sameMemory s t

/-- R14 to R16, R30, R31, R33: the position, the cached samples, the DAC and the trace change in the engine's
turn only (resets by the platform apart). -/
def Obligations.OnlyTheEngineMovesThePosition : Prop :=
  ∀ s t : State, step s = .next t → s.nextTurn ≠ .engine → s.nextTurn ≠ .platform →
    t.sampleIndex = s.sampleIndex ∧ t.phaseCounter = s.phaseCounter ∧ t.currentValue = s.currentValue ∧
      t.previousValue = s.previousValue ∧ t.dacData = s.dacData ∧ t.trace = s.trace ∧ t.reads = s.reads

/-- R128, R33: the engine writes none of the host's registers, the configuration, the buffer registers, the
interrupt enable or memory. -/
def Obligations.EngineWritesOnlyItsRegisters : Prop :=
  ∀ s t : State, s.engineTurn = .next t →
    t = { s with
      currentValue := t.currentValue, previousValue := t.previousValue, phaseCounter := t.phaseCounter
      sampleIndex := t.sampleIndex, timerEnable := t.timerEnable, syncBusy := t.syncBusy
      engineState := t.engineState, ovfPending := t.ovfPending, dacData := t.dacData, trace := t.trace
      reads := t.reads, count := t.count, countDraws := t.countDraws }

/-- R18 to R23, R28, R33: the configuration and the operand registers change in the host's turn only (resets by
the platform apart). -/
def Obligations.OnlyTheHostWritesTheConfiguration : Prop :=
  ∀ s t : State, step s = .next t → s.nextTurn ≠ .host → s.nextTurn ≠ .platform →
    t.factor = s.factor ∧ t.top = s.top ∧ t.timerMode = s.timerMode ∧ t.prescaler = s.prescaler ∧
      t.clkGen = s.clkGen ∧ t.dacResolution = s.dacResolution ∧ t.irqPriority = s.irqPriority ∧
      t.irqEnable = s.irqEnable ∧ t.arg0 = s.arg0 ∧ t.arg1 = s.arg1

/-- R12, R13, R55: reference and length change only together, in a step that accepts `PLAY`, and then to the two
operands, the timer being armed by the same step: no step sees one new and one old. -/
def Obligations.BufferChangesOnlyByPlayAndWhole : Prop :=
  ∀ s t : State, step s = .next t → s.nextTurn ≠ .platform →
    (t.bufferRef = s.bufferRef ∧ t.bufferLength = s.bufferLength) ∨
    (s.nextTurn = .host ∧ s.hostQueue.head? = some (.write 8#32 .word 2#32) ∧
      t.bufferRef = s.arg0 ∧ t.bufferLength = s.arg1 ∧ t.timerEnable = true)

/-- R26, R143: only the timer sets the pending flag and only the engine clears it; nothing clears the interrupt
enable (resets by the platform apart). -/
def Obligations.FlagAndEnableHaveTheirWriters : Prop :=
  ∀ s t : State, step s = .next t → s.nextTurn ≠ .platform →
    (s.ovfPending = false → t.ovfPending = true →
      (s.nextTurn = .tick ∨ s.nextTurn = .clockCycle) ∧ s.timerEnable = true) ∧
    (s.ovfPending = true → t.ovfPending = false → s.nextTurn = .engine) ∧
    (s.irqEnable = true → t.irqEnable = true)

/-- R31, R133: the trace only grows, by the value the DAC then holds, in an engine step; between emissions the
DAC holds its value. -/
def Obligations.DacHoldsBetweenEmissions : Prop :=
  ∀ s t : State, step s = .next t → s.nextTurn ≠ .platform →
    (t.trace = s.trace ∧ t.dacData = s.dacData) ∨
    (s.nextTurn = .engine ∧ s.interruptReady = true ∧ t.trace = s.trace ++ [t.dacData])

/-! ### Fair runs -/

/-- R115, R181: in a run in which synchronisation and engine are fair, the wait at end of buffer ends with part B.
That the engine's fairness covers part B is the model's choice (log 25). -/
def Obligations.FairEngineEndsItsStop : Prop :=
  ∀ r : Nat → State, IsRun r → Inv (r 0) → SyncFair r → EngineFair r →
    ∀ n, (r n).engineState = .waitSync → ∃ m, n ≤ m ∧ (r m).engineState = .idle

/-- R181, R126: with the three fairness assumptions, whatever the order of the turns, a pass that starts armed at
index 1, phase 0 over a length N ≥ 2 ends: after (N - 1) × factor emissions the block is stopped at index 1,
phase 0. No command of the host and no reset intervenes. That the engine's fairness covers part B of the stop is
the model's choice (log 25). -/
def Obligations.FairPassEnds : Prop :=
  ∀ r : Nat → State, IsRun r → Inv (r 0) → TickFair r → EngineFair r → SyncFair r → NoReset r →
    (r 0).hostQueue = [] → (r 0).timerEnable = true → (r 0).sampleIndex = 1#32 → (r 0).phaseCounter = 0#3 →
    2 ≤ (r 0).bufferLength.toNat →
    ∃ m, (r m).engineState = .idle ∧ (r m).timerEnable = false ∧ (r m).ovfPending = false ∧
      (r m).sampleIndex = 1#32 ∧ (r m).phaseCounter = 0#3 ∧
      (r m).trace.length = (r 0).trace.length + ((r 0).bufferLength.toNat - 1) * (r 0).factor.toNat
end

