-- ==== Sys2Proof/Laws/Memory.lean ====
section
/-! SUPPORT. Sample memory: a read after a write, and the canonical form, which every operation keeps. -/

namespace Sys2Proof.Machine

@[simp] theorem Memory.read_nil (a : Nat) : Memory.read [] a = none := rfl

theorem Memory.read_cons (addr : Nat) (value : Byte) (rest : Memory) (a : Nat) :
    Memory.read ((addr, value) :: rest) a = if addr = a then some value else Memory.read rest a := rfl

@[simp] theorem Memory.read_write_same (m : Memory) (a : Nat) (b : Byte) : (m.write a b).read a = some b := by
  induction m with
  | nil => simp [Memory.write, Memory.read]
  | cons cell rest ih =>
    obtain ⟨addr, value⟩ := cell
    unfold Memory.write
    split
    · simp [Memory.read]
    · split
      · simp [Memory.read]
      · simp [Memory.read, ih, show addr ≠ a by omega]

theorem Memory.read_write_other (m : Memory) (a a' : Nat) (b : Byte) (h : a' ≠ a) :
    (m.write a b).read a' = m.read a' := by
  induction m with
  | nil => simp [Memory.write, Memory.read, Ne.symm h]
  | cons cell rest ih =>
    obtain ⟨addr, value⟩ := cell
    unfold Memory.write
    split
    · simp [Memory.read, Ne.symm h]
    · split
      · subst_vars; simp [Memory.read, Ne.symm h]
      · simp [Memory.read, ih]

theorem Memory.read_release_other (m : Memory) (a a' : Nat) (h : a' ≠ a) :
    (m.release a).read a' = m.read a' := by
  induction m with
  | nil => rfl
  | cons cell rest ih =>
    obtain ⟨addr, value⟩ := cell
    unfold Memory.release
    split
    · subst_vars; simp [Memory.read, Ne.symm h]
    · simp [Memory.read, ih]

/-- Below the bound a rising memory starts at, nothing is listed. -/
theorem Memory.read_below (m : Memory) (low a : Nat) (hm : Memory.rising low m = true) (h : a < low) :
    m.read a = none := by
  induction m generalizing low with
  | nil => rfl
  | cons cell rest ih =>
    obtain ⟨addr, value⟩ := cell
    simp only [Memory.rising, Bool.and_eq_true, decide_eq_true_eq] at hm
    simp only [Memory.read, show addr ≠ a by omega, if_false]
    exact ih (addr + 1) hm.2 (by omega)

theorem Memory.rising_weaken (m : Memory) (low low' : Nat) (hm : Memory.rising low m = true) (h : low' ≤ low) :
    Memory.rising low' m = true := by
  cases m with
  | nil => rfl
  | cons cell rest =>
    simp only [Memory.rising, Bool.and_eq_true, decide_eq_true_eq] at hm ⊢
    exact ⟨⟨by omega, hm.1.2⟩, hm.2⟩

theorem Memory.rising_write (m : Memory) (low a : Nat) (b : Byte) (hm : Memory.rising low m = true)
    (hlow : low ≤ a) (ha : a < 2 ^ 32) : Memory.rising low (m.write a b) = true := by
  induction m generalizing low with
  | nil => simp [Memory.write, Memory.rising, hlow]; omega
  | cons cell rest ih =>
    obtain ⟨addr, value⟩ := cell
    simp only [Memory.rising, Bool.and_eq_true, decide_eq_true_eq] at hm
    unfold Memory.write
    split
    · simp only [Memory.rising, Bool.and_eq_true, decide_eq_true_eq]
      exact ⟨⟨hlow, ha⟩, ⟨by omega, hm.1.2⟩, hm.2⟩
    · split
      · subst_vars; simp only [Memory.rising, Bool.and_eq_true, decide_eq_true_eq]
        exact ⟨⟨hlow, ha⟩, hm.2⟩
      · simp only [Memory.rising, Bool.and_eq_true, decide_eq_true_eq]
        exact ⟨hm.1, ih (addr + 1) hm.2 (by omega)⟩

theorem Memory.rising_release (m : Memory) (low a : Nat) (hm : Memory.rising low m = true) :
    Memory.rising low (m.release a) = true := by
  induction m generalizing low with
  | nil => rfl
  | cons cell rest ih =>
    obtain ⟨addr, value⟩ := cell
    simp only [Memory.rising, Bool.and_eq_true, decide_eq_true_eq] at hm
    unfold Memory.release
    split
    · exact Memory.rising_weaken rest _ _ hm.2 (by omega)
    · simp only [Memory.rising, Bool.and_eq_true, decide_eq_true_eq]
      exact ⟨hm.1, ih (addr + 1) hm.2⟩

theorem Memory.read_release_same (m : Memory) (a : Nat) (hm : m.wf = true) : (m.release a).read a = none := by
  suffices ∀ low, Memory.rising low m = true → (m.release a).read a = none from this 0 hm
  induction m with
  | nil => intros; rfl
  | cons cell rest ih =>
    obtain ⟨addr, value⟩ := cell
    intro low hr
    simp only [Memory.rising, Bool.and_eq_true, decide_eq_true_eq] at hr
    unfold Memory.release
    split
    · exact Memory.read_below rest (addr + 1) a hr.2 (by omega)
    · rename_i hne
      simp only [Memory.read, hne, if_false]
      exact ih (Memory.rising_weaken rest (addr + 1) 0 hr.2 (by omega)) (addr + 1) hr.2

theorem Memory.wf_nil : Memory.wf [] = true := rfl

/-- Placing a byte keeps the canonical form. -/
theorem Memory.wf_write (m : Memory) (addr : Word) (b : Byte) (hm : m.wf = true) :
    (m.write addr.toNat b).wf = true :=
  Memory.rising_write m 0 addr.toNat b hm (Nat.zero_le _) addr.isLt

/-- Releasing a byte keeps the canonical form. -/
theorem Memory.wf_release (m : Memory) (a : Nat) (hm : m.wf = true) : (m.release a).wf = true :=
  Memory.rising_release m 0 a hm

/-- Sample memory right after reset is in canonical form. -/
theorem reset_memory_wf : State.reset.mem.wf = true := rfl

end Sys2Proof.Machine
end

