-- ==== Sys2Proof/Laws/Operands.lean ====
section
/-! SUPPORT. The values of Machine/Operands.lean as numbers, and the decoder's rows against the decision table. -/

namespace Sys2Proof.Machine

theorem coerceFactor_legal (o : Word) : legalFactor (coerceFactor o) := by
  unfold coerceFactor
  split
  · exact .inl rfl
  · split
    · exact .inr (.inl rfl)
    · split
      · exact .inr (.inr rfl)
      · exact .inl rfl

theorem coerceFactor_of_illegal (o : Word) (h1 : o ≠ 1#32) (h2 : o ≠ 2#32) (h4 : o ≠ 4#32) :
    coerceFactor o = 1#3 := by
  simp [coerceFactor, h1, h2, h4]

/-- A rescaled sample is four times the byte: the shift loses no bit (R111). -/
theorem rescale_toNat (b : Byte) : (rescale b).toNat = 4 * b.toNat := by
  have h := b.isLt
  simp only [rescale, Config.sampleShift, BitVec.toNat_shiftLeft, BitVec.toNat_setWidth, Nat.shiftLeft_eq]
  omega

theorem halfPoint_toNat (c p : DacValue) : (halfPoint c p).toNat = (c.toNat + p.toNat) / 2 := by
  have := c.isLt
  have := p.isLt
  simp only [halfPoint, BitVec.toNat_ofNat]
  omega

theorem quarterPoint_toNat (c p : DacValue) : (quarterPoint c p).toNat = (c.toNat + 3 * p.toNat) / 4 := by
  have := c.isLt
  have := p.isLt
  simp only [quarterPoint, BitVec.toNat_ofNat]
  omega

theorem threeQuarterPoint_toNat (c p : DacValue) :
    (threeQuarterPoint c p).toNat = (3 * c.toNat + p.toNat) / 4 := by
  have := c.isLt
  have := p.isLt
  simp only [threeQuarterPoint, BitVec.toNat_ofNat]
  omega

theorem phase_one_to_four (p : Phase) (h1 : 1 ≤ p.toNat) (h4 : p.toNat ≤ 4) :
    p = 1#3 ∨ p = 2#3 ∨ p = 3#3 ∨ p = 4#3 := by
  revert p
  decide

/-- A legal factor and a phase from 1 to 4 form one of the twelve keys, and its row is a micro-operation. -/
theorem decode_legal_key (f p : Phase) (hf : legalFactor f) (h1 : 1 ≤ p.toNat) (h4 : p.toNat ≤ 4) :
    ∃ i op, decode (.phase (f ++ p)) = .ok i ∧ microOpOf i = some op := by
  rcases hf with rfl | rfl | rfl <;>
    rcases phase_one_to_four p h1 h4 with rfl | rfl | rfl | rfl <;>
    exact ⟨_, _, rfl, rfl⟩

/-- Every key, held against the decision table at once. -/
theorem every_key_agrees : ∀ f p : Phase,
    (match decode (.phase (f ++ p)) with
      | .ok i => decide (legalFactor f ∧ 1 ≤ p.toNat ∧ p.toNat ≤ 4 ∧
          microOpOf i = selectMicroOp f.toNat p.toNat)
      | .error _ => true) = true := by
  decide

/-- A key that decodes has a legal factor and phase, and its row is the one the decision table picks (R66). -/
theorem decode_key_selects (f p : Phase) (i : Instr) (h : decode (.phase (f ++ p)) = .ok i) :
    legalFactor f ∧ 1 ≤ p.toNat ∧ p.toNat ≤ 4 ∧ microOpOf i = selectMicroOp f.toNat p.toNat := by
  have := every_key_agrees f p
  rw [h] at this
  exact of_decide_eq_true this

end Sys2Proof.Machine
end

