-- ==== Sys2Proof/Laws/State.lean ====
section
/-! SUPPORT. For every named update of the state, one lemma per field, so that no proof unfolds an update. -/

namespace Sys2Proof.Machine

variable (s : State)

/-! ### `State.raiseOverflow` (R101) -/

@[simp] theorem State.raiseOverflow_bufferRef : s.raiseOverflow.bufferRef = s.bufferRef := rfl
@[simp] theorem State.raiseOverflow_bufferLength : s.raiseOverflow.bufferLength = s.bufferLength := rfl
@[simp] theorem State.raiseOverflow_sampleIndex : s.raiseOverflow.sampleIndex = s.sampleIndex := rfl
@[simp] theorem State.raiseOverflow_phaseCounter : s.raiseOverflow.phaseCounter = s.phaseCounter := rfl
@[simp] theorem State.raiseOverflow_currentValue : s.raiseOverflow.currentValue = s.currentValue := rfl
@[simp] theorem State.raiseOverflow_previousValue : s.raiseOverflow.previousValue = s.previousValue := rfl
@[simp] theorem State.raiseOverflow_factor : s.raiseOverflow.factor = s.factor := rfl
@[simp] theorem State.raiseOverflow_top : s.raiseOverflow.top = s.top := rfl
@[simp] theorem State.raiseOverflow_timerMode : s.raiseOverflow.timerMode = s.timerMode := rfl
@[simp] theorem State.raiseOverflow_prescaler : s.raiseOverflow.prescaler = s.prescaler := rfl
@[simp] theorem State.raiseOverflow_clkGen : s.raiseOverflow.clkGen = s.clkGen := rfl
@[simp] theorem State.raiseOverflow_dacResolution : s.raiseOverflow.dacResolution = s.dacResolution := rfl
@[simp] theorem State.raiseOverflow_irqPriority : s.raiseOverflow.irqPriority = s.irqPriority := rfl
@[simp] theorem State.raiseOverflow_irqEnable : s.raiseOverflow.irqEnable = s.irqEnable := rfl
@[simp] theorem State.raiseOverflow_timerEnable : s.raiseOverflow.timerEnable = s.timerEnable := rfl
@[simp] theorem State.raiseOverflow_count : s.raiseOverflow.count = s.count := rfl
@[simp] theorem State.raiseOverflow_ovfPending : s.raiseOverflow.ovfPending = true := rfl
@[simp] theorem State.raiseOverflow_syncBusy : s.raiseOverflow.syncBusy = s.syncBusy := rfl
@[simp] theorem State.raiseOverflow_arg0 : s.raiseOverflow.arg0 = s.arg0 := rfl
@[simp] theorem State.raiseOverflow_arg1 : s.raiseOverflow.arg1 = s.arg1 := rfl
@[simp] theorem State.raiseOverflow_dacData : s.raiseOverflow.dacData = s.dacData := rfl
@[simp] theorem State.raiseOverflow_trace : s.raiseOverflow.trace = s.trace := rfl
@[simp] theorem State.raiseOverflow_engineState : s.raiseOverflow.engineState = s.engineState := rfl
@[simp] theorem State.raiseOverflow_hostBusy : s.raiseOverflow.hostBusy = s.hostBusy := rfl
@[simp] theorem State.raiseOverflow_mem : s.raiseOverflow.mem = s.mem := rfl
@[simp] theorem State.raiseOverflow_reads : s.raiseOverflow.reads = s.reads := rfl
@[simp] theorem State.raiseOverflow_hostQueue : s.raiseOverflow.hostQueue = s.hostQueue := rfl
@[simp] theorem State.raiseOverflow_platformQueue : s.raiseOverflow.platformQueue = s.platformQueue := rfl
@[simp] theorem State.raiseOverflow_turns : s.raiseOverflow.turns = s.turns := rfl
@[simp] theorem State.raiseOverflow_turnDraws : s.raiseOverflow.turnDraws = s.turnDraws := rfl
@[simp] theorem State.raiseOverflow_countDraws : s.raiseOverflow.countDraws = s.countDraws := rfl
@[simp] theorem State.raiseOverflow_baseClockHz : s.raiseOverflow.baseClockHz = s.baseClockHz := rfl

/-! ### `State.clearOverflow` (R120) -/

@[simp] theorem State.clearOverflow_bufferRef : s.clearOverflow.bufferRef = s.bufferRef := rfl
@[simp] theorem State.clearOverflow_bufferLength : s.clearOverflow.bufferLength = s.bufferLength := rfl
@[simp] theorem State.clearOverflow_sampleIndex : s.clearOverflow.sampleIndex = s.sampleIndex := rfl
@[simp] theorem State.clearOverflow_phaseCounter : s.clearOverflow.phaseCounter = s.phaseCounter := rfl
@[simp] theorem State.clearOverflow_currentValue : s.clearOverflow.currentValue = s.currentValue := rfl
@[simp] theorem State.clearOverflow_previousValue : s.clearOverflow.previousValue = s.previousValue := rfl
@[simp] theorem State.clearOverflow_factor : s.clearOverflow.factor = s.factor := rfl
@[simp] theorem State.clearOverflow_top : s.clearOverflow.top = s.top := rfl
@[simp] theorem State.clearOverflow_timerMode : s.clearOverflow.timerMode = s.timerMode := rfl
@[simp] theorem State.clearOverflow_prescaler : s.clearOverflow.prescaler = s.prescaler := rfl
@[simp] theorem State.clearOverflow_clkGen : s.clearOverflow.clkGen = s.clkGen := rfl
@[simp] theorem State.clearOverflow_dacResolution : s.clearOverflow.dacResolution = s.dacResolution := rfl
@[simp] theorem State.clearOverflow_irqPriority : s.clearOverflow.irqPriority = s.irqPriority := rfl
@[simp] theorem State.clearOverflow_irqEnable : s.clearOverflow.irqEnable = s.irqEnable := rfl
@[simp] theorem State.clearOverflow_timerEnable : s.clearOverflow.timerEnable = s.timerEnable := rfl
@[simp] theorem State.clearOverflow_count : s.clearOverflow.count = s.count := rfl
@[simp] theorem State.clearOverflow_ovfPending : s.clearOverflow.ovfPending = false := rfl
@[simp] theorem State.clearOverflow_syncBusy : s.clearOverflow.syncBusy = s.syncBusy := rfl
@[simp] theorem State.clearOverflow_arg0 : s.clearOverflow.arg0 = s.arg0 := rfl
@[simp] theorem State.clearOverflow_arg1 : s.clearOverflow.arg1 = s.arg1 := rfl
@[simp] theorem State.clearOverflow_dacData : s.clearOverflow.dacData = s.dacData := rfl
@[simp] theorem State.clearOverflow_trace : s.clearOverflow.trace = s.trace := rfl
@[simp] theorem State.clearOverflow_engineState : s.clearOverflow.engineState = s.engineState := rfl
@[simp] theorem State.clearOverflow_hostBusy : s.clearOverflow.hostBusy = s.hostBusy := rfl
@[simp] theorem State.clearOverflow_mem : s.clearOverflow.mem = s.mem := rfl
@[simp] theorem State.clearOverflow_reads : s.clearOverflow.reads = s.reads := rfl
@[simp] theorem State.clearOverflow_hostQueue : s.clearOverflow.hostQueue = s.hostQueue := rfl
@[simp] theorem State.clearOverflow_platformQueue : s.clearOverflow.platformQueue = s.platformQueue := rfl
@[simp] theorem State.clearOverflow_turns : s.clearOverflow.turns = s.turns := rfl
@[simp] theorem State.clearOverflow_turnDraws : s.clearOverflow.turnDraws = s.turnDraws := rfl
@[simp] theorem State.clearOverflow_countDraws : s.clearOverflow.countDraws = s.countDraws := rfl
@[simp] theorem State.clearOverflow_baseClockHz : s.clearOverflow.baseClockHz = s.baseClockHz := rfl

/-! ### `State.startSync` (R27) -/

@[simp] theorem State.startSync_bufferRef : s.startSync.bufferRef = s.bufferRef := rfl
@[simp] theorem State.startSync_bufferLength : s.startSync.bufferLength = s.bufferLength := rfl
@[simp] theorem State.startSync_sampleIndex : s.startSync.sampleIndex = s.sampleIndex := rfl
@[simp] theorem State.startSync_phaseCounter : s.startSync.phaseCounter = s.phaseCounter := rfl
@[simp] theorem State.startSync_currentValue : s.startSync.currentValue = s.currentValue := rfl
@[simp] theorem State.startSync_previousValue : s.startSync.previousValue = s.previousValue := rfl
@[simp] theorem State.startSync_factor : s.startSync.factor = s.factor := rfl
@[simp] theorem State.startSync_top : s.startSync.top = s.top := rfl
@[simp] theorem State.startSync_timerMode : s.startSync.timerMode = s.timerMode := rfl
@[simp] theorem State.startSync_prescaler : s.startSync.prescaler = s.prescaler := rfl
@[simp] theorem State.startSync_clkGen : s.startSync.clkGen = s.clkGen := rfl
@[simp] theorem State.startSync_dacResolution : s.startSync.dacResolution = s.dacResolution := rfl
@[simp] theorem State.startSync_irqPriority : s.startSync.irqPriority = s.irqPriority := rfl
@[simp] theorem State.startSync_irqEnable : s.startSync.irqEnable = s.irqEnable := rfl
@[simp] theorem State.startSync_timerEnable : s.startSync.timerEnable = s.timerEnable := rfl
@[simp] theorem State.startSync_count : s.startSync.count = s.count := rfl
@[simp] theorem State.startSync_ovfPending : s.startSync.ovfPending = s.ovfPending := rfl
@[simp] theorem State.startSync_syncBusy : s.startSync.syncBusy = true := rfl
@[simp] theorem State.startSync_arg0 : s.startSync.arg0 = s.arg0 := rfl
@[simp] theorem State.startSync_arg1 : s.startSync.arg1 = s.arg1 := rfl
@[simp] theorem State.startSync_dacData : s.startSync.dacData = s.dacData := rfl
@[simp] theorem State.startSync_trace : s.startSync.trace = s.trace := rfl
@[simp] theorem State.startSync_engineState : s.startSync.engineState = s.engineState := rfl
@[simp] theorem State.startSync_hostBusy : s.startSync.hostBusy = s.hostBusy := rfl
@[simp] theorem State.startSync_mem : s.startSync.mem = s.mem := rfl
@[simp] theorem State.startSync_reads : s.startSync.reads = s.reads := rfl
@[simp] theorem State.startSync_hostQueue : s.startSync.hostQueue = s.hostQueue := rfl
@[simp] theorem State.startSync_platformQueue : s.startSync.platformQueue = s.platformQueue := rfl
@[simp] theorem State.startSync_turns : s.startSync.turns = s.turns := rfl
@[simp] theorem State.startSync_turnDraws : s.startSync.turnDraws = s.turnDraws := rfl
@[simp] theorem State.startSync_countDraws : s.startSync.countDraws = s.countDraws := rfl
@[simp] theorem State.startSync_baseClockHz : s.startSync.baseClockHz = s.baseClockHz := rfl

/-! ### `State.startHostWait` (R32) -/

@[simp] theorem State.startHostWait_bufferRef : s.startHostWait.bufferRef = s.bufferRef := rfl
@[simp] theorem State.startHostWait_bufferLength : s.startHostWait.bufferLength = s.bufferLength := rfl
@[simp] theorem State.startHostWait_sampleIndex : s.startHostWait.sampleIndex = s.sampleIndex := rfl
@[simp] theorem State.startHostWait_phaseCounter : s.startHostWait.phaseCounter = s.phaseCounter := rfl
@[simp] theorem State.startHostWait_currentValue : s.startHostWait.currentValue = s.currentValue := rfl
@[simp] theorem State.startHostWait_previousValue : s.startHostWait.previousValue = s.previousValue := rfl
@[simp] theorem State.startHostWait_factor : s.startHostWait.factor = s.factor := rfl
@[simp] theorem State.startHostWait_top : s.startHostWait.top = s.top := rfl
@[simp] theorem State.startHostWait_timerMode : s.startHostWait.timerMode = s.timerMode := rfl
@[simp] theorem State.startHostWait_prescaler : s.startHostWait.prescaler = s.prescaler := rfl
@[simp] theorem State.startHostWait_clkGen : s.startHostWait.clkGen = s.clkGen := rfl
@[simp] theorem State.startHostWait_dacResolution : s.startHostWait.dacResolution = s.dacResolution := rfl
@[simp] theorem State.startHostWait_irqPriority : s.startHostWait.irqPriority = s.irqPriority := rfl
@[simp] theorem State.startHostWait_irqEnable : s.startHostWait.irqEnable = s.irqEnable := rfl
@[simp] theorem State.startHostWait_timerEnable : s.startHostWait.timerEnable = s.timerEnable := rfl
@[simp] theorem State.startHostWait_count : s.startHostWait.count = s.count := rfl
@[simp] theorem State.startHostWait_ovfPending : s.startHostWait.ovfPending = s.ovfPending := rfl
@[simp] theorem State.startHostWait_syncBusy : s.startHostWait.syncBusy = true := rfl
@[simp] theorem State.startHostWait_arg0 : s.startHostWait.arg0 = s.arg0 := rfl
@[simp] theorem State.startHostWait_arg1 : s.startHostWait.arg1 = s.arg1 := rfl
@[simp] theorem State.startHostWait_dacData : s.startHostWait.dacData = s.dacData := rfl
@[simp] theorem State.startHostWait_trace : s.startHostWait.trace = s.trace := rfl
@[simp] theorem State.startHostWait_engineState : s.startHostWait.engineState = s.engineState := rfl
@[simp] theorem State.startHostWait_hostBusy : s.startHostWait.hostBusy = true := rfl
@[simp] theorem State.startHostWait_mem : s.startHostWait.mem = s.mem := rfl
@[simp] theorem State.startHostWait_reads : s.startHostWait.reads = s.reads := rfl
@[simp] theorem State.startHostWait_hostQueue : s.startHostWait.hostQueue = s.hostQueue := rfl
@[simp] theorem State.startHostWait_platformQueue : s.startHostWait.platformQueue = s.platformQueue := rfl
@[simp] theorem State.startHostWait_turns : s.startHostWait.turns = s.turns := rfl
@[simp] theorem State.startHostWait_turnDraws : s.startHostWait.turnDraws = s.turnDraws := rfl
@[simp] theorem State.startHostWait_countDraws : s.startHostWait.countDraws = s.countDraws := rfl
@[simp] theorem State.startHostWait_baseClockHz : s.startHostWait.baseClockHz = s.baseClockHz := rfl

/-! ### `State.endSync` (R104) -/

@[simp] theorem State.endSync_bufferRef : s.endSync.bufferRef = s.bufferRef := rfl
@[simp] theorem State.endSync_bufferLength : s.endSync.bufferLength = s.bufferLength := rfl
@[simp] theorem State.endSync_sampleIndex : s.endSync.sampleIndex = s.sampleIndex := rfl
@[simp] theorem State.endSync_phaseCounter : s.endSync.phaseCounter = s.phaseCounter := rfl
@[simp] theorem State.endSync_currentValue : s.endSync.currentValue = s.currentValue := rfl
@[simp] theorem State.endSync_previousValue : s.endSync.previousValue = s.previousValue := rfl
@[simp] theorem State.endSync_factor : s.endSync.factor = s.factor := rfl
@[simp] theorem State.endSync_top : s.endSync.top = s.top := rfl
@[simp] theorem State.endSync_timerMode : s.endSync.timerMode = s.timerMode := rfl
@[simp] theorem State.endSync_prescaler : s.endSync.prescaler = s.prescaler := rfl
@[simp] theorem State.endSync_clkGen : s.endSync.clkGen = s.clkGen := rfl
@[simp] theorem State.endSync_dacResolution : s.endSync.dacResolution = s.dacResolution := rfl
@[simp] theorem State.endSync_irqPriority : s.endSync.irqPriority = s.irqPriority := rfl
@[simp] theorem State.endSync_irqEnable : s.endSync.irqEnable = s.irqEnable := rfl
@[simp] theorem State.endSync_timerEnable : s.endSync.timerEnable = s.timerEnable := rfl
@[simp] theorem State.endSync_count : s.endSync.count = s.count := rfl
@[simp] theorem State.endSync_ovfPending : s.endSync.ovfPending = s.ovfPending := rfl
@[simp] theorem State.endSync_syncBusy : s.endSync.syncBusy = false := rfl
@[simp] theorem State.endSync_arg0 : s.endSync.arg0 = s.arg0 := rfl
@[simp] theorem State.endSync_arg1 : s.endSync.arg1 = s.arg1 := rfl
@[simp] theorem State.endSync_dacData : s.endSync.dacData = s.dacData := rfl
@[simp] theorem State.endSync_trace : s.endSync.trace = s.trace := rfl
@[simp] theorem State.endSync_engineState : s.endSync.engineState = s.engineState := rfl
@[simp] theorem State.endSync_hostBusy : s.endSync.hostBusy = false := rfl
@[simp] theorem State.endSync_mem : s.endSync.mem = s.mem := rfl
@[simp] theorem State.endSync_reads : s.endSync.reads = s.reads := rfl
@[simp] theorem State.endSync_hostQueue : s.endSync.hostQueue = s.hostQueue := rfl
@[simp] theorem State.endSync_platformQueue : s.endSync.platformQueue = s.platformQueue := rfl
@[simp] theorem State.endSync_turns : s.endSync.turns = s.turns := rfl
@[simp] theorem State.endSync_turnDraws : s.endSync.turnDraws = s.turnDraws := rfl
@[simp] theorem State.endSync_countDraws : s.endSync.countDraws = s.countDraws := rfl
@[simp] theorem State.endSync_baseClockHz : s.endSync.baseClockHz = s.baseClockHz := rfl

/-! ### `State.latch` (R111) -/

@[simp] theorem State.latch_bufferRef (c p : Byte) : (s.latch c p).bufferRef = s.bufferRef := rfl
@[simp] theorem State.latch_bufferLength (c p : Byte) : (s.latch c p).bufferLength = s.bufferLength := rfl
@[simp] theorem State.latch_sampleIndex (c p : Byte) : (s.latch c p).sampleIndex = s.sampleIndex := rfl
@[simp] theorem State.latch_phaseCounter (c p : Byte) : (s.latch c p).phaseCounter = s.phaseCounter := rfl
@[simp] theorem State.latch_currentValue (c p : Byte) : (s.latch c p).currentValue = rescale c := rfl
@[simp] theorem State.latch_previousValue (c p : Byte) : (s.latch c p).previousValue = rescale p := rfl
@[simp] theorem State.latch_factor (c p : Byte) : (s.latch c p).factor = s.factor := rfl
@[simp] theorem State.latch_top (c p : Byte) : (s.latch c p).top = s.top := rfl
@[simp] theorem State.latch_timerMode (c p : Byte) : (s.latch c p).timerMode = s.timerMode := rfl
@[simp] theorem State.latch_prescaler (c p : Byte) : (s.latch c p).prescaler = s.prescaler := rfl
@[simp] theorem State.latch_clkGen (c p : Byte) : (s.latch c p).clkGen = s.clkGen := rfl
@[simp] theorem State.latch_dacResolution (c p : Byte) : (s.latch c p).dacResolution = s.dacResolution := rfl
@[simp] theorem State.latch_irqPriority (c p : Byte) : (s.latch c p).irqPriority = s.irqPriority := rfl
@[simp] theorem State.latch_irqEnable (c p : Byte) : (s.latch c p).irqEnable = s.irqEnable := rfl
@[simp] theorem State.latch_timerEnable (c p : Byte) : (s.latch c p).timerEnable = s.timerEnable := rfl
@[simp] theorem State.latch_count (c p : Byte) : (s.latch c p).count = s.count := rfl
@[simp] theorem State.latch_ovfPending (c p : Byte) : (s.latch c p).ovfPending = s.ovfPending := rfl
@[simp] theorem State.latch_syncBusy (c p : Byte) : (s.latch c p).syncBusy = s.syncBusy := rfl
@[simp] theorem State.latch_arg0 (c p : Byte) : (s.latch c p).arg0 = s.arg0 := rfl
@[simp] theorem State.latch_arg1 (c p : Byte) : (s.latch c p).arg1 = s.arg1 := rfl
@[simp] theorem State.latch_dacData (c p : Byte) : (s.latch c p).dacData = s.dacData := rfl
@[simp] theorem State.latch_trace (c p : Byte) : (s.latch c p).trace = s.trace := rfl
@[simp] theorem State.latch_engineState (c p : Byte) : (s.latch c p).engineState = s.engineState := rfl
@[simp] theorem State.latch_hostBusy (c p : Byte) : (s.latch c p).hostBusy = s.hostBusy := rfl
@[simp] theorem State.latch_mem (c p : Byte) : (s.latch c p).mem = s.mem := rfl
@[simp] theorem State.latch_reads (c p : Byte) : (s.latch c p).reads = s.reads ++ [s.elementAddr s.sampleIndex, s.elementAddr (s.sampleIndex - 1)] := rfl
@[simp] theorem State.latch_hostQueue (c p : Byte) : (s.latch c p).hostQueue = s.hostQueue := rfl
@[simp] theorem State.latch_platformQueue (c p : Byte) : (s.latch c p).platformQueue = s.platformQueue := rfl
@[simp] theorem State.latch_turns (c p : Byte) : (s.latch c p).turns = s.turns := rfl
@[simp] theorem State.latch_turnDraws (c p : Byte) : (s.latch c p).turnDraws = s.turnDraws := rfl
@[simp] theorem State.latch_countDraws (c p : Byte) : (s.latch c p).countDraws = s.countDraws := rfl
@[simp] theorem State.latch_baseClockHz (c p : Byte) : (s.latch c p).baseClockHz = s.baseClockHz := rfl

/-! ### `State.nextPhase` (R112) -/

@[simp] theorem State.nextPhase_bufferRef : s.nextPhase.bufferRef = s.bufferRef := rfl
@[simp] theorem State.nextPhase_bufferLength : s.nextPhase.bufferLength = s.bufferLength := rfl
@[simp] theorem State.nextPhase_sampleIndex : s.nextPhase.sampleIndex = s.sampleIndex := rfl
@[simp] theorem State.nextPhase_phaseCounter : s.nextPhase.phaseCounter = s.phaseCounter + 1 := rfl
@[simp] theorem State.nextPhase_currentValue : s.nextPhase.currentValue = s.currentValue := rfl
@[simp] theorem State.nextPhase_previousValue : s.nextPhase.previousValue = s.previousValue := rfl
@[simp] theorem State.nextPhase_factor : s.nextPhase.factor = s.factor := rfl
@[simp] theorem State.nextPhase_top : s.nextPhase.top = s.top := rfl
@[simp] theorem State.nextPhase_timerMode : s.nextPhase.timerMode = s.timerMode := rfl
@[simp] theorem State.nextPhase_prescaler : s.nextPhase.prescaler = s.prescaler := rfl
@[simp] theorem State.nextPhase_clkGen : s.nextPhase.clkGen = s.clkGen := rfl
@[simp] theorem State.nextPhase_dacResolution : s.nextPhase.dacResolution = s.dacResolution := rfl
@[simp] theorem State.nextPhase_irqPriority : s.nextPhase.irqPriority = s.irqPriority := rfl
@[simp] theorem State.nextPhase_irqEnable : s.nextPhase.irqEnable = s.irqEnable := rfl
@[simp] theorem State.nextPhase_timerEnable : s.nextPhase.timerEnable = s.timerEnable := rfl
@[simp] theorem State.nextPhase_count : s.nextPhase.count = s.count := rfl
@[simp] theorem State.nextPhase_ovfPending : s.nextPhase.ovfPending = s.ovfPending := rfl
@[simp] theorem State.nextPhase_syncBusy : s.nextPhase.syncBusy = s.syncBusy := rfl
@[simp] theorem State.nextPhase_arg0 : s.nextPhase.arg0 = s.arg0 := rfl
@[simp] theorem State.nextPhase_arg1 : s.nextPhase.arg1 = s.arg1 := rfl
@[simp] theorem State.nextPhase_dacData : s.nextPhase.dacData = s.dacData := rfl
@[simp] theorem State.nextPhase_trace : s.nextPhase.trace = s.trace := rfl
@[simp] theorem State.nextPhase_engineState : s.nextPhase.engineState = s.engineState := rfl
@[simp] theorem State.nextPhase_hostBusy : s.nextPhase.hostBusy = s.hostBusy := rfl
@[simp] theorem State.nextPhase_mem : s.nextPhase.mem = s.mem := rfl
@[simp] theorem State.nextPhase_reads : s.nextPhase.reads = s.reads := rfl
@[simp] theorem State.nextPhase_hostQueue : s.nextPhase.hostQueue = s.hostQueue := rfl
@[simp] theorem State.nextPhase_platformQueue : s.nextPhase.platformQueue = s.platformQueue := rfl
@[simp] theorem State.nextPhase_turns : s.nextPhase.turns = s.turns := rfl
@[simp] theorem State.nextPhase_turnDraws : s.nextPhase.turnDraws = s.turnDraws := rfl
@[simp] theorem State.nextPhase_countDraws : s.nextPhase.countDraws = s.countDraws := rfl
@[simp] theorem State.nextPhase_baseClockHz : s.nextPhase.baseClockHz = s.baseClockHz := rfl

/-! ### `State.emit` (R130) -/

@[simp] theorem State.emit_bufferRef (v : DacValue) : (s.emit v).bufferRef = s.bufferRef := rfl
@[simp] theorem State.emit_bufferLength (v : DacValue) : (s.emit v).bufferLength = s.bufferLength := rfl
@[simp] theorem State.emit_sampleIndex (v : DacValue) : (s.emit v).sampleIndex = s.sampleIndex := rfl
@[simp] theorem State.emit_phaseCounter (v : DacValue) : (s.emit v).phaseCounter = s.phaseCounter := rfl
@[simp] theorem State.emit_currentValue (v : DacValue) : (s.emit v).currentValue = s.currentValue := rfl
@[simp] theorem State.emit_previousValue (v : DacValue) : (s.emit v).previousValue = s.previousValue := rfl
@[simp] theorem State.emit_factor (v : DacValue) : (s.emit v).factor = s.factor := rfl
@[simp] theorem State.emit_top (v : DacValue) : (s.emit v).top = s.top := rfl
@[simp] theorem State.emit_timerMode (v : DacValue) : (s.emit v).timerMode = s.timerMode := rfl
@[simp] theorem State.emit_prescaler (v : DacValue) : (s.emit v).prescaler = s.prescaler := rfl
@[simp] theorem State.emit_clkGen (v : DacValue) : (s.emit v).clkGen = s.clkGen := rfl
@[simp] theorem State.emit_dacResolution (v : DacValue) : (s.emit v).dacResolution = s.dacResolution := rfl
@[simp] theorem State.emit_irqPriority (v : DacValue) : (s.emit v).irqPriority = s.irqPriority := rfl
@[simp] theorem State.emit_irqEnable (v : DacValue) : (s.emit v).irqEnable = s.irqEnable := rfl
@[simp] theorem State.emit_timerEnable (v : DacValue) : (s.emit v).timerEnable = s.timerEnable := rfl
@[simp] theorem State.emit_count (v : DacValue) : (s.emit v).count = s.count := rfl
@[simp] theorem State.emit_ovfPending (v : DacValue) : (s.emit v).ovfPending = s.ovfPending := rfl
@[simp] theorem State.emit_syncBusy (v : DacValue) : (s.emit v).syncBusy = s.syncBusy := rfl
@[simp] theorem State.emit_arg0 (v : DacValue) : (s.emit v).arg0 = s.arg0 := rfl
@[simp] theorem State.emit_arg1 (v : DacValue) : (s.emit v).arg1 = s.arg1 := rfl
@[simp] theorem State.emit_dacData (v : DacValue) : (s.emit v).dacData = v := rfl
@[simp] theorem State.emit_trace (v : DacValue) : (s.emit v).trace = s.trace ++ [v] := rfl
@[simp] theorem State.emit_engineState (v : DacValue) : (s.emit v).engineState = s.engineState := rfl
@[simp] theorem State.emit_hostBusy (v : DacValue) : (s.emit v).hostBusy = s.hostBusy := rfl
@[simp] theorem State.emit_mem (v : DacValue) : (s.emit v).mem = s.mem := rfl
@[simp] theorem State.emit_reads (v : DacValue) : (s.emit v).reads = s.reads := rfl
@[simp] theorem State.emit_hostQueue (v : DacValue) : (s.emit v).hostQueue = s.hostQueue := rfl
@[simp] theorem State.emit_platformQueue (v : DacValue) : (s.emit v).platformQueue = s.platformQueue := rfl
@[simp] theorem State.emit_turns (v : DacValue) : (s.emit v).turns = s.turns := rfl
@[simp] theorem State.emit_turnDraws (v : DacValue) : (s.emit v).turnDraws = s.turnDraws := rfl
@[simp] theorem State.emit_countDraws (v : DacValue) : (s.emit v).countDraws = s.countDraws := rfl
@[simp] theorem State.emit_baseClockHz (v : DacValue) : (s.emit v).baseClockHz = s.baseClockHz := rfl

/-! ### `State.nextWindow` (R114) -/

@[simp] theorem State.nextWindow_bufferRef : s.nextWindow.bufferRef = s.bufferRef := rfl
@[simp] theorem State.nextWindow_bufferLength : s.nextWindow.bufferLength = s.bufferLength := rfl
@[simp] theorem State.nextWindow_sampleIndex : s.nextWindow.sampleIndex = s.sampleIndex + 1 := rfl
@[simp] theorem State.nextWindow_phaseCounter : s.nextWindow.phaseCounter = 0 := rfl
@[simp] theorem State.nextWindow_currentValue : s.nextWindow.currentValue = s.currentValue := rfl
@[simp] theorem State.nextWindow_previousValue : s.nextWindow.previousValue = s.previousValue := rfl
@[simp] theorem State.nextWindow_factor : s.nextWindow.factor = s.factor := rfl
@[simp] theorem State.nextWindow_top : s.nextWindow.top = s.top := rfl
@[simp] theorem State.nextWindow_timerMode : s.nextWindow.timerMode = s.timerMode := rfl
@[simp] theorem State.nextWindow_prescaler : s.nextWindow.prescaler = s.prescaler := rfl
@[simp] theorem State.nextWindow_clkGen : s.nextWindow.clkGen = s.clkGen := rfl
@[simp] theorem State.nextWindow_dacResolution : s.nextWindow.dacResolution = s.dacResolution := rfl
@[simp] theorem State.nextWindow_irqPriority : s.nextWindow.irqPriority = s.irqPriority := rfl
@[simp] theorem State.nextWindow_irqEnable : s.nextWindow.irqEnable = s.irqEnable := rfl
@[simp] theorem State.nextWindow_timerEnable : s.nextWindow.timerEnable = s.timerEnable := rfl
@[simp] theorem State.nextWindow_count : s.nextWindow.count = s.count := rfl
@[simp] theorem State.nextWindow_ovfPending : s.nextWindow.ovfPending = s.ovfPending := rfl
@[simp] theorem State.nextWindow_syncBusy : s.nextWindow.syncBusy = s.syncBusy := rfl
@[simp] theorem State.nextWindow_arg0 : s.nextWindow.arg0 = s.arg0 := rfl
@[simp] theorem State.nextWindow_arg1 : s.nextWindow.arg1 = s.arg1 := rfl
@[simp] theorem State.nextWindow_dacData : s.nextWindow.dacData = s.dacData := rfl
@[simp] theorem State.nextWindow_trace : s.nextWindow.trace = s.trace := rfl
@[simp] theorem State.nextWindow_engineState : s.nextWindow.engineState = s.engineState := rfl
@[simp] theorem State.nextWindow_hostBusy : s.nextWindow.hostBusy = s.hostBusy := rfl
@[simp] theorem State.nextWindow_mem : s.nextWindow.mem = s.mem := rfl
@[simp] theorem State.nextWindow_reads : s.nextWindow.reads = s.reads := rfl
@[simp] theorem State.nextWindow_hostQueue : s.nextWindow.hostQueue = s.hostQueue := rfl
@[simp] theorem State.nextWindow_platformQueue : s.nextWindow.platformQueue = s.platformQueue := rfl
@[simp] theorem State.nextWindow_turns : s.nextWindow.turns = s.turns := rfl
@[simp] theorem State.nextWindow_turnDraws : s.nextWindow.turnDraws = s.turnDraws := rfl
@[simp] theorem State.nextWindow_countDraws : s.nextWindow.countDraws = s.countDraws := rfl
@[simp] theorem State.nextWindow_baseClockHz : s.nextWindow.baseClockHz = s.baseClockHz := rfl

/-! ### `State.drawCount` (R105) -/

@[simp] theorem State.drawCount_bufferRef : s.drawCount.bufferRef = s.bufferRef := rfl
@[simp] theorem State.drawCount_bufferLength : s.drawCount.bufferLength = s.bufferLength := rfl
@[simp] theorem State.drawCount_sampleIndex : s.drawCount.sampleIndex = s.sampleIndex := rfl
@[simp] theorem State.drawCount_phaseCounter : s.drawCount.phaseCounter = s.phaseCounter := rfl
@[simp] theorem State.drawCount_currentValue : s.drawCount.currentValue = s.currentValue := rfl
@[simp] theorem State.drawCount_previousValue : s.drawCount.previousValue = s.previousValue := rfl
@[simp] theorem State.drawCount_factor : s.drawCount.factor = s.factor := rfl
@[simp] theorem State.drawCount_top : s.drawCount.top = s.top := rfl
@[simp] theorem State.drawCount_timerMode : s.drawCount.timerMode = s.timerMode := rfl
@[simp] theorem State.drawCount_prescaler : s.drawCount.prescaler = s.prescaler := rfl
@[simp] theorem State.drawCount_clkGen : s.drawCount.clkGen = s.clkGen := rfl
@[simp] theorem State.drawCount_dacResolution : s.drawCount.dacResolution = s.dacResolution := rfl
@[simp] theorem State.drawCount_irqPriority : s.drawCount.irqPriority = s.irqPriority := rfl
@[simp] theorem State.drawCount_irqEnable : s.drawCount.irqEnable = s.irqEnable := rfl
@[simp] theorem State.drawCount_timerEnable : s.drawCount.timerEnable = s.timerEnable := rfl
@[simp] theorem State.drawCount_count : s.drawCount.count = Config.freeCount s.countDraws := rfl
@[simp] theorem State.drawCount_ovfPending : s.drawCount.ovfPending = s.ovfPending := rfl
@[simp] theorem State.drawCount_syncBusy : s.drawCount.syncBusy = s.syncBusy := rfl
@[simp] theorem State.drawCount_arg0 : s.drawCount.arg0 = s.arg0 := rfl
@[simp] theorem State.drawCount_arg1 : s.drawCount.arg1 = s.arg1 := rfl
@[simp] theorem State.drawCount_dacData : s.drawCount.dacData = s.dacData := rfl
@[simp] theorem State.drawCount_trace : s.drawCount.trace = s.trace := rfl
@[simp] theorem State.drawCount_engineState : s.drawCount.engineState = s.engineState := rfl
@[simp] theorem State.drawCount_hostBusy : s.drawCount.hostBusy = s.hostBusy := rfl
@[simp] theorem State.drawCount_mem : s.drawCount.mem = s.mem := rfl
@[simp] theorem State.drawCount_reads : s.drawCount.reads = s.reads := rfl
@[simp] theorem State.drawCount_hostQueue : s.drawCount.hostQueue = s.hostQueue := rfl
@[simp] theorem State.drawCount_platformQueue : s.drawCount.platformQueue = s.platformQueue := rfl
@[simp] theorem State.drawCount_turns : s.drawCount.turns = s.turns := rfl
@[simp] theorem State.drawCount_turnDraws : s.drawCount.turnDraws = s.turnDraws := rfl
@[simp] theorem State.drawCount_countDraws : s.drawCount.countDraws = s.countDraws + 1 := rfl
@[simp] theorem State.drawCount_baseClockHz : s.drawCount.baseClockHz = s.baseClockHz := rfl

/-! ### `State.disarm` (R93, R115) -/

@[simp] theorem State.disarm_bufferRef : s.disarm.bufferRef = s.bufferRef := rfl
@[simp] theorem State.disarm_bufferLength : s.disarm.bufferLength = s.bufferLength := rfl
@[simp] theorem State.disarm_sampleIndex : s.disarm.sampleIndex = s.sampleIndex := rfl
@[simp] theorem State.disarm_phaseCounter : s.disarm.phaseCounter = s.phaseCounter := rfl
@[simp] theorem State.disarm_currentValue : s.disarm.currentValue = s.currentValue := rfl
@[simp] theorem State.disarm_previousValue : s.disarm.previousValue = s.previousValue := rfl
@[simp] theorem State.disarm_factor : s.disarm.factor = s.factor := rfl
@[simp] theorem State.disarm_top : s.disarm.top = s.top := rfl
@[simp] theorem State.disarm_timerMode : s.disarm.timerMode = s.timerMode := rfl
@[simp] theorem State.disarm_prescaler : s.disarm.prescaler = s.prescaler := rfl
@[simp] theorem State.disarm_clkGen : s.disarm.clkGen = s.clkGen := rfl
@[simp] theorem State.disarm_dacResolution : s.disarm.dacResolution = s.dacResolution := rfl
@[simp] theorem State.disarm_irqPriority : s.disarm.irqPriority = s.irqPriority := rfl
@[simp] theorem State.disarm_irqEnable : s.disarm.irqEnable = s.irqEnable := rfl
@[simp] theorem State.disarm_timerEnable : s.disarm.timerEnable = false := rfl
@[simp] theorem State.disarm_count : s.disarm.count = Config.freeCount s.countDraws := rfl
@[simp] theorem State.disarm_ovfPending : s.disarm.ovfPending = s.ovfPending := rfl
@[simp] theorem State.disarm_syncBusy : s.disarm.syncBusy = true := rfl
@[simp] theorem State.disarm_arg0 : s.disarm.arg0 = s.arg0 := rfl
@[simp] theorem State.disarm_arg1 : s.disarm.arg1 = s.arg1 := rfl
@[simp] theorem State.disarm_dacData : s.disarm.dacData = s.dacData := rfl
@[simp] theorem State.disarm_trace : s.disarm.trace = s.trace := rfl
@[simp] theorem State.disarm_engineState : s.disarm.engineState = s.engineState := rfl
@[simp] theorem State.disarm_hostBusy : s.disarm.hostBusy = s.hostBusy := rfl
@[simp] theorem State.disarm_mem : s.disarm.mem = s.mem := rfl
@[simp] theorem State.disarm_reads : s.disarm.reads = s.reads := rfl
@[simp] theorem State.disarm_hostQueue : s.disarm.hostQueue = s.hostQueue := rfl
@[simp] theorem State.disarm_platformQueue : s.disarm.platformQueue = s.platformQueue := rfl
@[simp] theorem State.disarm_turns : s.disarm.turns = s.turns := rfl
@[simp] theorem State.disarm_turnDraws : s.disarm.turnDraws = s.turnDraws := rfl
@[simp] theorem State.disarm_countDraws : s.disarm.countDraws = s.countDraws + 1 := rfl
@[simp] theorem State.disarm_baseClockHz : s.disarm.baseClockHz = s.baseClockHz := rfl

/-! ### `State.beginStop` (R115) -/

@[simp] theorem State.beginStop_bufferRef : s.beginStop.bufferRef = s.bufferRef := rfl
@[simp] theorem State.beginStop_bufferLength : s.beginStop.bufferLength = s.bufferLength := rfl
@[simp] theorem State.beginStop_sampleIndex : s.beginStop.sampleIndex = s.sampleIndex := rfl
@[simp] theorem State.beginStop_phaseCounter : s.beginStop.phaseCounter = s.phaseCounter := rfl
@[simp] theorem State.beginStop_currentValue : s.beginStop.currentValue = s.currentValue := rfl
@[simp] theorem State.beginStop_previousValue : s.beginStop.previousValue = s.previousValue := rfl
@[simp] theorem State.beginStop_factor : s.beginStop.factor = s.factor := rfl
@[simp] theorem State.beginStop_top : s.beginStop.top = s.top := rfl
@[simp] theorem State.beginStop_timerMode : s.beginStop.timerMode = s.timerMode := rfl
@[simp] theorem State.beginStop_prescaler : s.beginStop.prescaler = s.prescaler := rfl
@[simp] theorem State.beginStop_clkGen : s.beginStop.clkGen = s.clkGen := rfl
@[simp] theorem State.beginStop_dacResolution : s.beginStop.dacResolution = s.dacResolution := rfl
@[simp] theorem State.beginStop_irqPriority : s.beginStop.irqPriority = s.irqPriority := rfl
@[simp] theorem State.beginStop_irqEnable : s.beginStop.irqEnable = s.irqEnable := rfl
@[simp] theorem State.beginStop_timerEnable : s.beginStop.timerEnable = false := rfl
@[simp] theorem State.beginStop_count : s.beginStop.count = Config.freeCount s.countDraws := rfl
@[simp] theorem State.beginStop_ovfPending : s.beginStop.ovfPending = s.ovfPending := rfl
@[simp] theorem State.beginStop_syncBusy : s.beginStop.syncBusy = true := rfl
@[simp] theorem State.beginStop_arg0 : s.beginStop.arg0 = s.arg0 := rfl
@[simp] theorem State.beginStop_arg1 : s.beginStop.arg1 = s.arg1 := rfl
@[simp] theorem State.beginStop_dacData : s.beginStop.dacData = s.dacData := rfl
@[simp] theorem State.beginStop_trace : s.beginStop.trace = s.trace := rfl
@[simp] theorem State.beginStop_engineState : s.beginStop.engineState = .waitSync := rfl
@[simp] theorem State.beginStop_hostBusy : s.beginStop.hostBusy = s.hostBusy := rfl
@[simp] theorem State.beginStop_mem : s.beginStop.mem = s.mem := rfl
@[simp] theorem State.beginStop_reads : s.beginStop.reads = s.reads := rfl
@[simp] theorem State.beginStop_hostQueue : s.beginStop.hostQueue = s.hostQueue := rfl
@[simp] theorem State.beginStop_platformQueue : s.beginStop.platformQueue = s.platformQueue := rfl
@[simp] theorem State.beginStop_turns : s.beginStop.turns = s.turns := rfl
@[simp] theorem State.beginStop_turnDraws : s.beginStop.turnDraws = s.turnDraws := rfl
@[simp] theorem State.beginStop_countDraws : s.beginStop.countDraws = s.countDraws + 1 := rfl
@[simp] theorem State.beginStop_baseClockHz : s.beginStop.baseClockHz = s.baseClockHz := rfl

/-! ### `State.returnFromInterrupt` (R120, R147) -/

@[simp] theorem State.returnFromInterrupt_bufferRef : s.returnFromInterrupt.bufferRef = s.bufferRef := rfl
@[simp] theorem State.returnFromInterrupt_bufferLength : s.returnFromInterrupt.bufferLength = s.bufferLength := rfl
@[simp] theorem State.returnFromInterrupt_sampleIndex : s.returnFromInterrupt.sampleIndex = s.sampleIndex := rfl
@[simp] theorem State.returnFromInterrupt_phaseCounter : s.returnFromInterrupt.phaseCounter = s.phaseCounter := rfl
@[simp] theorem State.returnFromInterrupt_currentValue : s.returnFromInterrupt.currentValue = s.currentValue := rfl
@[simp] theorem State.returnFromInterrupt_previousValue : s.returnFromInterrupt.previousValue = s.previousValue := rfl
@[simp] theorem State.returnFromInterrupt_factor : s.returnFromInterrupt.factor = s.factor := rfl
@[simp] theorem State.returnFromInterrupt_top : s.returnFromInterrupt.top = s.top := rfl
@[simp] theorem State.returnFromInterrupt_timerMode : s.returnFromInterrupt.timerMode = s.timerMode := rfl
@[simp] theorem State.returnFromInterrupt_prescaler : s.returnFromInterrupt.prescaler = s.prescaler := rfl
@[simp] theorem State.returnFromInterrupt_clkGen : s.returnFromInterrupt.clkGen = s.clkGen := rfl
@[simp] theorem State.returnFromInterrupt_dacResolution : s.returnFromInterrupt.dacResolution = s.dacResolution := rfl
@[simp] theorem State.returnFromInterrupt_irqPriority : s.returnFromInterrupt.irqPriority = s.irqPriority := rfl
@[simp] theorem State.returnFromInterrupt_irqEnable : s.returnFromInterrupt.irqEnable = s.irqEnable := rfl
@[simp] theorem State.returnFromInterrupt_timerEnable : s.returnFromInterrupt.timerEnable = s.timerEnable := rfl
@[simp] theorem State.returnFromInterrupt_count : s.returnFromInterrupt.count = s.count := rfl
@[simp] theorem State.returnFromInterrupt_ovfPending : s.returnFromInterrupt.ovfPending = false := rfl
@[simp] theorem State.returnFromInterrupt_syncBusy : s.returnFromInterrupt.syncBusy = s.syncBusy := rfl
@[simp] theorem State.returnFromInterrupt_arg0 : s.returnFromInterrupt.arg0 = s.arg0 := rfl
@[simp] theorem State.returnFromInterrupt_arg1 : s.returnFromInterrupt.arg1 = s.arg1 := rfl
@[simp] theorem State.returnFromInterrupt_dacData : s.returnFromInterrupt.dacData = s.dacData := rfl
@[simp] theorem State.returnFromInterrupt_trace : s.returnFromInterrupt.trace = s.trace := rfl
@[simp] theorem State.returnFromInterrupt_engineState : s.returnFromInterrupt.engineState = s.engineState := rfl
@[simp] theorem State.returnFromInterrupt_hostBusy : s.returnFromInterrupt.hostBusy = s.hostBusy := rfl
@[simp] theorem State.returnFromInterrupt_mem : s.returnFromInterrupt.mem = s.mem := rfl
@[simp] theorem State.returnFromInterrupt_reads : s.returnFromInterrupt.reads = s.reads := rfl
@[simp] theorem State.returnFromInterrupt_hostQueue : s.returnFromInterrupt.hostQueue = s.hostQueue := rfl
@[simp] theorem State.returnFromInterrupt_platformQueue : s.returnFromInterrupt.platformQueue = s.platformQueue := rfl
@[simp] theorem State.returnFromInterrupt_turns : s.returnFromInterrupt.turns = s.turns := rfl
@[simp] theorem State.returnFromInterrupt_turnDraws : s.returnFromInterrupt.turnDraws = s.turnDraws := rfl
@[simp] theorem State.returnFromInterrupt_countDraws : s.returnFromInterrupt.countDraws = s.countDraws := rfl
@[simp] theorem State.returnFromInterrupt_baseClockHz : s.returnFromInterrupt.baseClockHz = s.baseClockHz := rfl

/-! ### `State.endStop` (R115) -/

@[simp] theorem State.endStop_bufferRef : s.endStop.bufferRef = s.bufferRef := rfl
@[simp] theorem State.endStop_bufferLength : s.endStop.bufferLength = s.bufferLength := rfl
@[simp] theorem State.endStop_sampleIndex : s.endStop.sampleIndex = Config.firstIndex := rfl
@[simp] theorem State.endStop_phaseCounter : s.endStop.phaseCounter = s.phaseCounter := rfl
@[simp] theorem State.endStop_currentValue : s.endStop.currentValue = s.currentValue := rfl
@[simp] theorem State.endStop_previousValue : s.endStop.previousValue = s.previousValue := rfl
@[simp] theorem State.endStop_factor : s.endStop.factor = s.factor := rfl
@[simp] theorem State.endStop_top : s.endStop.top = s.top := rfl
@[simp] theorem State.endStop_timerMode : s.endStop.timerMode = s.timerMode := rfl
@[simp] theorem State.endStop_prescaler : s.endStop.prescaler = s.prescaler := rfl
@[simp] theorem State.endStop_clkGen : s.endStop.clkGen = s.clkGen := rfl
@[simp] theorem State.endStop_dacResolution : s.endStop.dacResolution = s.dacResolution := rfl
@[simp] theorem State.endStop_irqPriority : s.endStop.irqPriority = s.irqPriority := rfl
@[simp] theorem State.endStop_irqEnable : s.endStop.irqEnable = s.irqEnable := rfl
@[simp] theorem State.endStop_timerEnable : s.endStop.timerEnable = s.timerEnable := rfl
@[simp] theorem State.endStop_count : s.endStop.count = s.count := rfl
@[simp] theorem State.endStop_ovfPending : s.endStop.ovfPending = false := rfl
@[simp] theorem State.endStop_syncBusy : s.endStop.syncBusy = s.syncBusy := rfl
@[simp] theorem State.endStop_arg0 : s.endStop.arg0 = s.arg0 := rfl
@[simp] theorem State.endStop_arg1 : s.endStop.arg1 = s.arg1 := rfl
@[simp] theorem State.endStop_dacData : s.endStop.dacData = s.dacData := rfl
@[simp] theorem State.endStop_trace : s.endStop.trace = s.trace := rfl
@[simp] theorem State.endStop_engineState : s.endStop.engineState = .idle := rfl
@[simp] theorem State.endStop_hostBusy : s.endStop.hostBusy = s.hostBusy := rfl
@[simp] theorem State.endStop_mem : s.endStop.mem = s.mem := rfl
@[simp] theorem State.endStop_reads : s.endStop.reads = s.reads := rfl
@[simp] theorem State.endStop_hostQueue : s.endStop.hostQueue = s.hostQueue := rfl
@[simp] theorem State.endStop_platformQueue : s.endStop.platformQueue = s.platformQueue := rfl
@[simp] theorem State.endStop_turns : s.endStop.turns = s.turns := rfl
@[simp] theorem State.endStop_turnDraws : s.endStop.turnDraws = s.turnDraws := rfl
@[simp] theorem State.endStop_countDraws : s.endStop.countDraws = s.countDraws := rfl
@[simp] theorem State.endStop_baseClockHz : s.endStop.baseClockHz = s.baseClockHz := rfl

/-! ### `State.programClock` (R81 to R83) -/

@[simp] theorem State.programClock_bufferRef (f : Phase) (n : Nat) : (s.programClock f n).bufferRef = s.bufferRef := rfl
@[simp] theorem State.programClock_bufferLength (f : Phase) (n : Nat) : (s.programClock f n).bufferLength = s.bufferLength := rfl
@[simp] theorem State.programClock_sampleIndex (f : Phase) (n : Nat) : (s.programClock f n).sampleIndex = s.sampleIndex := rfl
@[simp] theorem State.programClock_phaseCounter (f : Phase) (n : Nat) : (s.programClock f n).phaseCounter = s.phaseCounter := rfl
@[simp] theorem State.programClock_currentValue (f : Phase) (n : Nat) : (s.programClock f n).currentValue = s.currentValue := rfl
@[simp] theorem State.programClock_previousValue (f : Phase) (n : Nat) : (s.programClock f n).previousValue = s.previousValue := rfl
@[simp] theorem State.programClock_factor (f : Phase) (n : Nat) : (s.programClock f n).factor = f := rfl
@[simp] theorem State.programClock_top (f : Phase) (n : Nat) : (s.programClock f n).top = BitVec.ofNat 16 n := rfl
@[simp] theorem State.programClock_timerMode (f : Phase) (n : Nat) : (s.programClock f n).timerMode = .mfrq := rfl
@[simp] theorem State.programClock_prescaler (f : Phase) (n : Nat) : (s.programClock f n).prescaler = .x1 := rfl
@[simp] theorem State.programClock_clkGen (f : Phase) (n : Nat) : (s.programClock f n).clkGen = { div := Config.clkDiv, src := Config.clkSrc, enable := true } := rfl
@[simp] theorem State.programClock_dacResolution (f : Phase) (n : Nat) : (s.programClock f n).dacResolution = .bits10 := rfl
@[simp] theorem State.programClock_irqPriority (f : Phase) (n : Nat) : (s.programClock f n).irqPriority = .highest := rfl
@[simp] theorem State.programClock_irqEnable (f : Phase) (n : Nat) : (s.programClock f n).irqEnable = true := rfl
@[simp] theorem State.programClock_timerEnable (f : Phase) (n : Nat) : (s.programClock f n).timerEnable = s.timerEnable := rfl
@[simp] theorem State.programClock_count (f : Phase) (n : Nat) : (s.programClock f n).count = s.count := rfl
@[simp] theorem State.programClock_ovfPending (f : Phase) (n : Nat) : (s.programClock f n).ovfPending = s.ovfPending := rfl
@[simp] theorem State.programClock_syncBusy (f : Phase) (n : Nat) : (s.programClock f n).syncBusy = s.syncBusy := rfl
@[simp] theorem State.programClock_arg0 (f : Phase) (n : Nat) : (s.programClock f n).arg0 = s.arg0 := rfl
@[simp] theorem State.programClock_arg1 (f : Phase) (n : Nat) : (s.programClock f n).arg1 = s.arg1 := rfl
@[simp] theorem State.programClock_dacData (f : Phase) (n : Nat) : (s.programClock f n).dacData = s.dacData := rfl
@[simp] theorem State.programClock_trace (f : Phase) (n : Nat) : (s.programClock f n).trace = s.trace := rfl
@[simp] theorem State.programClock_engineState (f : Phase) (n : Nat) : (s.programClock f n).engineState = s.engineState := rfl
@[simp] theorem State.programClock_hostBusy (f : Phase) (n : Nat) : (s.programClock f n).hostBusy = s.hostBusy := rfl
@[simp] theorem State.programClock_mem (f : Phase) (n : Nat) : (s.programClock f n).mem = s.mem := rfl
@[simp] theorem State.programClock_reads (f : Phase) (n : Nat) : (s.programClock f n).reads = s.reads := rfl
@[simp] theorem State.programClock_hostQueue (f : Phase) (n : Nat) : (s.programClock f n).hostQueue = s.hostQueue := rfl
@[simp] theorem State.programClock_platformQueue (f : Phase) (n : Nat) : (s.programClock f n).platformQueue = s.platformQueue := rfl
@[simp] theorem State.programClock_turns (f : Phase) (n : Nat) : (s.programClock f n).turns = s.turns := rfl
@[simp] theorem State.programClock_turnDraws (f : Phase) (n : Nat) : (s.programClock f n).turnDraws = s.turnDraws := rfl
@[simp] theorem State.programClock_countDraws (f : Phase) (n : Nat) : (s.programClock f n).countDraws = s.countDraws := rfl
@[simp] theorem State.programClock_baseClockHz (f : Phase) (n : Nat) : (s.programClock f n).baseClockHz = s.baseClockHz := rfl

/-! ### `State.installAndArm` (R90) -/

@[simp] theorem State.installAndArm_bufferRef : s.installAndArm.bufferRef = s.arg0 := rfl
@[simp] theorem State.installAndArm_bufferLength : s.installAndArm.bufferLength = s.arg1 := rfl
@[simp] theorem State.installAndArm_sampleIndex : s.installAndArm.sampleIndex = s.sampleIndex := rfl
@[simp] theorem State.installAndArm_phaseCounter : s.installAndArm.phaseCounter = s.phaseCounter := rfl
@[simp] theorem State.installAndArm_currentValue : s.installAndArm.currentValue = s.currentValue := rfl
@[simp] theorem State.installAndArm_previousValue : s.installAndArm.previousValue = s.previousValue := rfl
@[simp] theorem State.installAndArm_factor : s.installAndArm.factor = s.factor := rfl
@[simp] theorem State.installAndArm_top : s.installAndArm.top = s.top := rfl
@[simp] theorem State.installAndArm_timerMode : s.installAndArm.timerMode = s.timerMode := rfl
@[simp] theorem State.installAndArm_prescaler : s.installAndArm.prescaler = s.prescaler := rfl
@[simp] theorem State.installAndArm_clkGen : s.installAndArm.clkGen = s.clkGen := rfl
@[simp] theorem State.installAndArm_dacResolution : s.installAndArm.dacResolution = s.dacResolution := rfl
@[simp] theorem State.installAndArm_irqPriority : s.installAndArm.irqPriority = s.irqPriority := rfl
@[simp] theorem State.installAndArm_irqEnable : s.installAndArm.irqEnable = s.irqEnable := rfl
@[simp] theorem State.installAndArm_timerEnable : s.installAndArm.timerEnable = true := rfl
@[simp] theorem State.installAndArm_count : s.installAndArm.count = s.count := rfl
@[simp] theorem State.installAndArm_ovfPending : s.installAndArm.ovfPending = s.ovfPending := rfl
@[simp] theorem State.installAndArm_syncBusy : s.installAndArm.syncBusy = s.syncBusy := rfl
@[simp] theorem State.installAndArm_arg0 : s.installAndArm.arg0 = s.arg0 := rfl
@[simp] theorem State.installAndArm_arg1 : s.installAndArm.arg1 = s.arg1 := rfl
@[simp] theorem State.installAndArm_dacData : s.installAndArm.dacData = s.dacData := rfl
@[simp] theorem State.installAndArm_trace : s.installAndArm.trace = s.trace := rfl
@[simp] theorem State.installAndArm_engineState : s.installAndArm.engineState = s.engineState := rfl
@[simp] theorem State.installAndArm_hostBusy : s.installAndArm.hostBusy = s.hostBusy := rfl
@[simp] theorem State.installAndArm_mem : s.installAndArm.mem = s.mem := rfl
@[simp] theorem State.installAndArm_reads : s.installAndArm.reads = s.reads := rfl
@[simp] theorem State.installAndArm_hostQueue : s.installAndArm.hostQueue = s.hostQueue := rfl
@[simp] theorem State.installAndArm_platformQueue : s.installAndArm.platformQueue = s.platformQueue := rfl
@[simp] theorem State.installAndArm_turns : s.installAndArm.turns = s.turns := rfl
@[simp] theorem State.installAndArm_turnDraws : s.installAndArm.turnDraws = s.turnDraws := rfl
@[simp] theorem State.installAndArm_countDraws : s.installAndArm.countDraws = s.countDraws := rfl
@[simp] theorem State.installAndArm_baseClockHz : s.installAndArm.baseClockHz = s.baseClockHz := rfl

/-! ### `State.takeTurn` -/

@[simp] theorem State.takeTurn_bufferRef : s.takeTurn.bufferRef = s.bufferRef := by
  unfold State.takeTurn; split <;> rfl
@[simp] theorem State.takeTurn_bufferLength : s.takeTurn.bufferLength = s.bufferLength := by
  unfold State.takeTurn; split <;> rfl
@[simp] theorem State.takeTurn_sampleIndex : s.takeTurn.sampleIndex = s.sampleIndex := by
  unfold State.takeTurn; split <;> rfl
@[simp] theorem State.takeTurn_phaseCounter : s.takeTurn.phaseCounter = s.phaseCounter := by
  unfold State.takeTurn; split <;> rfl
@[simp] theorem State.takeTurn_currentValue : s.takeTurn.currentValue = s.currentValue := by
  unfold State.takeTurn; split <;> rfl
@[simp] theorem State.takeTurn_previousValue : s.takeTurn.previousValue = s.previousValue := by
  unfold State.takeTurn; split <;> rfl
@[simp] theorem State.takeTurn_factor : s.takeTurn.factor = s.factor := by
  unfold State.takeTurn; split <;> rfl
@[simp] theorem State.takeTurn_top : s.takeTurn.top = s.top := by
  unfold State.takeTurn; split <;> rfl
@[simp] theorem State.takeTurn_timerMode : s.takeTurn.timerMode = s.timerMode := by
  unfold State.takeTurn; split <;> rfl
@[simp] theorem State.takeTurn_prescaler : s.takeTurn.prescaler = s.prescaler := by
  unfold State.takeTurn; split <;> rfl
@[simp] theorem State.takeTurn_clkGen : s.takeTurn.clkGen = s.clkGen := by
  unfold State.takeTurn; split <;> rfl
@[simp] theorem State.takeTurn_dacResolution : s.takeTurn.dacResolution = s.dacResolution := by
  unfold State.takeTurn; split <;> rfl
@[simp] theorem State.takeTurn_irqPriority : s.takeTurn.irqPriority = s.irqPriority := by
  unfold State.takeTurn; split <;> rfl
@[simp] theorem State.takeTurn_irqEnable : s.takeTurn.irqEnable = s.irqEnable := by
  unfold State.takeTurn; split <;> rfl
@[simp] theorem State.takeTurn_timerEnable : s.takeTurn.timerEnable = s.timerEnable := by
  unfold State.takeTurn; split <;> rfl
@[simp] theorem State.takeTurn_count : s.takeTurn.count = s.count := by
  unfold State.takeTurn; split <;> rfl
@[simp] theorem State.takeTurn_ovfPending : s.takeTurn.ovfPending = s.ovfPending := by
  unfold State.takeTurn; split <;> rfl
@[simp] theorem State.takeTurn_syncBusy : s.takeTurn.syncBusy = s.syncBusy := by
  unfold State.takeTurn; split <;> rfl
@[simp] theorem State.takeTurn_arg0 : s.takeTurn.arg0 = s.arg0 := by
  unfold State.takeTurn; split <;> rfl
@[simp] theorem State.takeTurn_arg1 : s.takeTurn.arg1 = s.arg1 := by
  unfold State.takeTurn; split <;> rfl
@[simp] theorem State.takeTurn_dacData : s.takeTurn.dacData = s.dacData := by
  unfold State.takeTurn; split <;> rfl
@[simp] theorem State.takeTurn_trace : s.takeTurn.trace = s.trace := by
  unfold State.takeTurn; split <;> rfl
@[simp] theorem State.takeTurn_engineState : s.takeTurn.engineState = s.engineState := by
  unfold State.takeTurn; split <;> rfl
@[simp] theorem State.takeTurn_hostBusy : s.takeTurn.hostBusy = s.hostBusy := by
  unfold State.takeTurn; split <;> rfl
@[simp] theorem State.takeTurn_mem : s.takeTurn.mem = s.mem := by
  unfold State.takeTurn; split <;> rfl
@[simp] theorem State.takeTurn_reads : s.takeTurn.reads = s.reads := by
  unfold State.takeTurn; split <;> rfl
@[simp] theorem State.takeTurn_hostQueue : s.takeTurn.hostQueue = s.hostQueue := by
  unfold State.takeTurn; split <;> rfl
@[simp] theorem State.takeTurn_platformQueue : s.takeTurn.platformQueue = s.platformQueue := by
  unfold State.takeTurn; split <;> rfl
@[simp] theorem State.takeTurn_countDraws : s.takeTurn.countDraws = s.countDraws := by
  unfold State.takeTurn; split <;> rfl
@[simp] theorem State.takeTurn_baseClockHz : s.takeTurn.baseClockHz = s.baseClockHz := by
  unfold State.takeTurn; split <;> rfl

end Sys2Proof.Machine
end

