-- ==== Sys2Proof/Laws/Ops.lean ====
section
/-! SUPPORT. For each shared operation and each meaning one lemma that says everything it can do, for proofs to
cite instead of unfolding it. -/

namespace Sys2Proof.Machine

/-! ### The sample load (R42, R46, R111) -/

/-- A read that answers is inside the buffer and gives the byte placed there. -/
theorem readElement_ok {s : State} {index : Word} {b : Byte} (h : s.readElement index = .ok b) :
    index.toNat < s.bufferLength.toNat ∧ s.mem.read (s.elementAddr index).toNat = some b := by
  unfold State.readElement at h
  split at h
  · split at h
    · cases h; exact ⟨by assumption, by assumption⟩
    · cases h
  · cases h

theorem readElement_placed {s : State} {index : Word} {b : Byte} (hi : index.toNat < s.bufferLength.toNat)
    (hb : s.mem.read (s.elementAddr index).toNat = some b) : s.readElement index = .ok b := by
  simp [State.readElement, hi, hb]

theorem readElement_outside {s : State} {index : Word} (hi : s.bufferLength.toNat ≤ index.toNat) :
    s.readElement index = .error (.outOfBufferRead (s.elementAddr index)) := by
  simp [State.readElement, Nat.not_lt.mpr hi]

/-- In the middle of a window nothing is loaded. -/
theorem loadWindow_midWindow {s : State} (h : s.phaseCounter ≠ 0#3) : s.loadWindow = .ok s := by
  simp [State.loadWindow, h]

/-- Everything a load that answers can do: nothing in mid-window, at phase 0 the latch of both samples. -/
theorem loadWindow_ok {s t : State} (h : s.loadWindow = .ok t) :
    (s.phaseCounter ≠ 0#3 ∧ t = s) ∨
    (s.phaseCounter = 0#3 ∧ ∃ c p, s.readElement s.sampleIndex = .ok c ∧
      s.readElement (s.sampleIndex - 1) = .ok p ∧ t = s.latch c p) := by
  unfold State.loadWindow at h
  split at h
  · split at h
    · cases h
    · split at h
      · cases h
      · cases h; exact .inr ⟨by assumption, _, _, by assumption, by assumption, rfl⟩
  · cases h; exact .inl ⟨by assumption, rfl⟩

theorem loadWindow_latches {s : State} {c p : Byte} (h0 : s.phaseCounter = 0#3)
    (hc : s.readElement s.sampleIndex = .ok c) (hp : s.readElement (s.sampleIndex - 1) = .ok p) :
    s.loadWindow = .ok (s.latch c p) := by
  simp only [State.loadWindow, h0, if_true, hc, hp]

/-! ### The micro-operations (R114 to R118) -/

/-- `EMIT_FULL` either goes on to the next window or begins the end-of-buffer stop, by the length test on the
incremented index. -/
theorem emitFull_cases (s : State) :
    (s.bufferLength.toNat ≤ (s.sampleIndex + 1).toNat ∧
      s.emitFull = (s.emit s.currentValue).nextWindow.beginStop) ∨
    ((s.sampleIndex + 1).toNat < s.bufferLength.toNat ∧
      s.emitFull = (s.emit s.currentValue).nextWindow) := by
  by_cases h : s.bufferLength.toNat ≤ (s.sampleIndex + 1).toNat
  · exact .inl ⟨h, if_pos h⟩
  · exact .inr ⟨Nat.lt_of_not_le h, if_neg h⟩

/-- Executing a phase row runs its micro-operation and always answers a next state. -/
theorem exec_phase_row {i : Instr} {op : MicroOp} (h : microOpOf i = some op) (s : State) :
    exec i s = .next (s.runMicroOp op) := by
  cases i <;> cases h <;> rfl

/-! ### The host commands (R80 to R97) -/

/-- `CONFIGURE` answers a next state exactly at a legal rate, and then this one. -/
theorem execConfigure_next {s t : State} (h : execConfigure s = .next t) :
    s.legalRate ∧
      t = (s.programClock (coerceFactor s.arg1) s.requestedTop).startHostWait.drawCount := by
  unfold execConfigure at h
  split at h
  · cases h
  · split at h
    · cases h
    · split at h
      · cases h
      · cases h
        exact ⟨⟨by assumption, by omega, by omega⟩, rfl⟩

theorem execConfigure_legal {s : State} (h : s.legalRate) :
    execConfigure s =
      .next ((s.programClock (coerceFactor s.arg1) s.requestedTop).startHostWait.drawCount) := by
  obtain ⟨h0, h1, h2⟩ := h
  rw [execConfigure, if_neg h0, if_neg (by omega), if_neg (Nat.not_le.mpr h2)]

theorem execPlay_configured {s : State} (h : s.irqEnable = true) :
    execPlay s = .next (s.installAndArm.startHostWait.drawCount) := by
  simp [execPlay, h]

/-- `PLAY` answers a next state exactly after a `CONFIGURE`, and then this one. -/
theorem execPlay_next {s t : State} (h : execPlay s = .next t) :
    s.irqEnable = true ∧ t = s.installAndArm.startHostWait.drawCount := by
  unfold execPlay at h
  split at h
  · cases h; exact ⟨by assumption, rfl⟩
  · cases h

/-! ### The agents -/

/-- Everything a host access that is accepted can do. -/
theorem acceptAccess_next {s t : State} {a : HostAccess} (h : s.acceptAccess a = .next t) :
    (∃ v, a.target = some (.arg0, v) ∧ t = { s with arg0 := v }) ∨
    (∃ v, a.target = some (.arg1, v) ∧ t = { s with arg1 := v }) ∨
    (∃ w i, a.target = some (.cmd, w) ∧ decode (.cmd w) = .ok i ∧ exec i s = .next t) := by
  unfold State.acceptAccess at h
  split at h
  · cases h
  · cases h; exact .inl ⟨_, by assumption, rfl⟩
  · cases h; exact .inr (.inl ⟨_, by assumption, rfl⟩)
  · split at h
    · exact .inr (.inr ⟨_, _, by assumption, by assumption, h⟩)
    · cases h

/-- A `CMD` word that decodes is one of the three commands. -/
theorem decode_cmd_ok {w : Word} {i : Instr} (h : decode (.cmd w) = .ok i) :
    (w = 1#32 ∧ i = .configure) ∨ (w = 2#32 ∧ i = .play) ∨ (w = 3#32 ∧ i = .pause) := by
  simp only [decode, decodeCommand, commandRows, List.find?, OpcodeRow.selects,
    show (0xFFFFFFFF#32) = BitVec.allOnes 32 from rfl, BitVec.and_allOnes] at h
  by_cases h1 : w = 1#32
  · subst h1; cases h; exact .inl ⟨rfl, rfl⟩
  · by_cases h2 : w = 2#32
    · subst h2; cases h; exact .inr (.inl ⟨rfl, rfl⟩)
    · by_cases h3 : w = 3#32
      · subst h3; cases h; exact .inr (.inr ⟨rfl, rfl⟩)
      · rw [beq_false_of_ne h1, beq_false_of_ne h2, beq_false_of_ne h3] at h
        cases h

/-- Everything the host's turn can do. -/
theorem hostTurn_next {s t : State} (h : s.hostTurn = .next t) :
    t = s ∨ (s.hostReady = true ∧ ∃ a rest, s.hostQueue = a :: rest ∧
      State.acceptAccess { s with hostQueue := rest } a = .next t) := by
  unfold State.hostTurn at h
  split at h
  · split at h
    · cases h; exact .inl rfl
    · exact .inr ⟨by assumption, _, _, by assumption, h⟩
  · cases h; exact .inl rfl

theorem runPhase_row {s : State} {i : Instr} (h : decode (.phase s.phaseKey) = .ok i) :
    s.runPhase = exec i s := by
  simp [State.runPhase, h]

/-- Step 3 of an engine step always answers a next state: the micro-operation that the decision table picks,
or, off the table, nothing (R113, R119). -/
theorem runPhase_next (s : State) :
    (∃ op, selectMicroOp s.factor.toNat s.phaseCounter.toNat = some op ∧ s.runPhase = .next (s.runMicroOp op)) ∨
    (selectMicroOp s.factor.toNat s.phaseCounter.toNat = none ∧ s.runPhase = .next s) := by
  unfold State.runPhase
  split
  · rename_i i hi
    obtain ⟨hf, h1, h4, hsel⟩ := decode_key_selects s.factor s.phaseCounter i hi
    obtain ⟨i', op, hi', hop⟩ := decode_legal_key s.factor s.phaseCounter hf h1 h4
    rw [State.phaseKey, hi'] at hi
    cases hi
    exact .inl ⟨op, by rw [← hsel, hop], exec_phase_row hop s⟩
  · split
    · exact .inl ⟨_, by assumption, rfl⟩
    · exact .inr ⟨by assumption, rfl⟩

theorem finishStep_idle {s : State} (h : s.engineState = .idle) : s.finishStep = s.returnFromInterrupt := by
  simp [State.finishStep, h]

theorem finishStep_waiting {s : State} (h : s.engineState = .waitSync) : s.finishStep = s := by
  simp [State.finishStep, h]

/-- Everything an engine step that answers can do. -/
theorem engineStep_next {s t : State} (h : s.engineStep = .next t) :
    ∃ loaded ran, s.loadWindow = .ok loaded ∧ loaded.nextPhase.runPhase = .next ran ∧ t = ran.finishStep := by
  unfold State.engineStep at h
  split at h
  · cases h
  · split at h
    · cases h; exact ⟨_, _, by assumption, by assumption, rfl⟩
    · cases h
    · cases h

theorem engineStep_eq {s loaded ran : State} (hl : s.loadWindow = .ok loaded)
    (hr : loaded.nextPhase.runPhase = .next ran) : s.engineStep = .next ran.finishStep := by
  simp [State.engineStep, hl, hr]

/-- Everything the engine's turn can do: nothing, a whole step, or part B of the stop. -/
theorem engineTurn_next {s t : State} (h : s.engineTurn = .next t) :
    t = s ∨ (s.interruptReady = true ∧ s.engineStep = .next t) ∨
    (s.engineState = .waitSync ∧ s.syncBusy = false ∧ t = s.endStop) := by
  unfold State.engineTurn at h
  split at h
  · split at h
    · exact .inr (.inl ⟨by assumption, h⟩)
    · cases h; exact .inl rfl
  · split at h
    · cases h; exact .inl rfl
    · cases h; exact .inr (.inr ⟨by assumption, by simpa using (by assumption : ¬ s.syncBusy = true), rfl⟩)

/-- An interrupt that is ready runs a whole engine step (R110). -/
theorem engineTurn_ready {s : State} (h : s.interruptReady = true) : s.engineTurn = s.engineStep := by
  have hidle : s.engineState = .idle := by
    simp only [State.interruptReady, Bool.and_eq_true, beq_iff_eq] at h
    exact h.2
  unfold State.engineTurn
  rw [hidle]
  exact if_pos h

theorem interruptReady_iff (s : State) :
    s.interruptReady = true ↔ s.ovfPending = true ∧ s.irqEnable = true ∧ s.engineState = .idle := by
  simp [State.interruptReady, and_assoc]

theorem stopReady_iff (s : State) : s.stopReady = true ↔ s.engineState = .waitSync ∧ s.syncBusy = false := by
  simp [State.stopReady]

theorem engineReady_iff (s : State) : s.engineReady = true ↔ s.interruptReady = true ∨ s.stopReady = true := by
  simp [State.engineReady]

/-- Part B of the stop runs in the engine's turn as soon as its synchronisation is over (R115). -/
theorem engineTurn_stopReady {s : State} (h : s.stopReady = true) : s.engineTurn = .next s.endStop := by
  obtain ⟨hw, hb⟩ := (stopReady_iff s).1 h
  simp [State.engineTurn, hw, hb]

/-- An engine with no step to take lets its turn pass (log 2). -/
theorem engineTurn_passes {s : State} (h : s.engineReady = false) : s.engineTurn = .next s := by
  simp only [State.engineReady, Bool.or_eq_false_iff] at h
  cases he : s.engineState <;> simp_all [State.engineTurn, State.stopReady]

/-- Everything the platform's turn can do. -/
theorem platformTurn_cases (s : State) :
    (s.platformQueue = [] ∧ s.platformTurn = s) ∨
    (∃ addr v rest, s.platformQueue = .place addr v :: rest ∧
      s.platformTurn = { s with platformQueue := rest, mem := s.mem.write addr.toNat v }) ∨
    (∃ addr rest, s.platformQueue = .release addr :: rest ∧
      s.platformTurn = { s with platformQueue := rest, mem := s.mem.release addr.toNat }) ∨
    (∃ rest, s.platformQueue = .reset :: rest ∧
      s.platformTurn = State.resetBlock { s with platformQueue := rest }) := by
  unfold State.platformTurn
  split
  · exact .inl ⟨by assumption, rfl⟩
  · exact .inr (.inl ⟨_, _, _, by assumption, rfl⟩)
  · exact .inr (.inr (.inl ⟨_, _, by assumption, rfl⟩))
  · exact .inr (.inr (.inr ⟨_, by assumption, rfl⟩))

/-- Everything one cycle of the input clock can do (R100). -/
theorem clockTurn_cases (s : State) :
    (s.timerCounts = false ∧ s.clockTurn = s) ∨
    (s.timerCounts = true ∧ s.top.toNat ≤ s.count.toNat + 1 ∧
      s.clockTurn = State.raiseOverflow { s with count := 0 }) ∨
    (s.timerCounts = true ∧ s.count.toNat + 1 < s.top.toNat ∧
      s.clockTurn = { s with count := s.count + 1 }) := by
  unfold State.clockTurn
  split
  · split
    · exact .inr (.inl ⟨by assumption, by assumption, rfl⟩)
    · exact .inr (.inr ⟨by assumption, by omega, rfl⟩)
  · exact .inl ⟨by simpa using (by assumption : ¬ s.timerCounts = true), rfl⟩

/-- A step on a listed turn. -/
theorem step_listed_turn {s : State} {turn : Turn} {rest : List Turn} (h : s.turns = turn :: rest) :
    step s = State.runTurn { s with turns := rest } turn := by
  simp [step, State.nextTurn, State.takeTurn, h]

/-- Everything a step can do: the agent whose turn it is moves in the state with that turn taken. -/
theorem step_next {s t : State} (h : step s = .next t) :
    (s.nextTurn = .host ∧ s.takeTurn.hostTurn = .next t) ∨
    (s.nextTurn = .tick ∧ t = s.takeTurn.tickTurn) ∨
    (s.nextTurn = .clockCycle ∧ t = s.takeTurn.clockTurn) ∨
    (s.nextTurn = .engine ∧ s.takeTurn.engineTurn = .next t) ∨
    (s.nextTurn = .syncComplete ∧ t = s.takeTurn.syncTurn) ∨
    (s.nextTurn = .platform ∧ t = s.takeTurn.platformTurn) := by
  unfold step State.runTurn at h
  split at h <;> simp_all

end Sys2Proof.Machine
end

