-- ==== Sys2Proof/Laws/PerInstr.lean ====
section
/-! SUPPORT. The family of per-instruction statements: each row of the opcode table, found by its own word and
running the micro-operation that the decision table of 43_sample_advance_engine.md R113 picks for its key. -/

namespace Sys2Proof.Laws.TableRow

/-- The bits the opcode table gives a row, in whole bytes, and the row's word (R64, R66). -/
def tableWord : Instr → Nat × Nat
  | .configure => (32, 1)
  | .play => (32, 2)
  | .pause => (32, 3)
  | .emitFullF1P1 => (8, 0b001001)
  | .emitFullF1P2 => (8, 0b001010)
  | .emitFullF1P3 => (8, 0b001011)
  | .emitFullF1P4 => (8, 0b001100)
  | .emitHalfF2P1 => (8, 0b010001)
  | .emitFullF2P2 => (8, 0b010010)
  | .emitFullF2P3 => (8, 0b010011)
  | .emitFullF2P4 => (8, 0b010100)
  | .emitQuarterF4P1 => (8, 0b100001)
  | .emitHalfF4P2 => (8, 0b100010)
  | .emit3QuarterF4P3 => (8, 0b100011)
  | .emitFullF4P4 => (8, 0b100100)

/-- The row's word decodes to it, and a phase row's key, factor above phase, is one on which the priority-ordered
tests pick its micro-operation; a command, whose word is no key, has none. -/
def Statement (i : Instr) : Prop :=
  decodeTableWord (tableWord i).1 (tableWord i).2 = some i ∧ i.wellFormed = true ∧
    microOpOf i = if (tableWord i).1 = 8 then selectMicroOp ((tableWord i).2 / 8) ((tableWord i).2 % 8) else none

theorem configure : Statement .configure := by unfold Statement; decide

theorem play : Statement .play := by unfold Statement; decide

theorem pause : Statement .pause := by unfold Statement; decide

theorem emitFullF1P1 : Statement .emitFullF1P1 := by unfold Statement; decide

theorem emitFullF1P2 : Statement .emitFullF1P2 := by unfold Statement; decide

theorem emitFullF1P3 : Statement .emitFullF1P3 := by unfold Statement; decide

theorem emitFullF1P4 : Statement .emitFullF1P4 := by unfold Statement; decide

theorem emitHalfF2P1 : Statement .emitHalfF2P1 := by unfold Statement; decide

theorem emitFullF2P2 : Statement .emitFullF2P2 := by unfold Statement; decide

theorem emitFullF2P3 : Statement .emitFullF2P3 := by unfold Statement; decide

theorem emitFullF2P4 : Statement .emitFullF2P4 := by unfold Statement; decide

theorem emitQuarterF4P1 : Statement .emitQuarterF4P1 := by unfold Statement; decide

theorem emitHalfF4P2 : Statement .emitHalfF4P2 := by unfold Statement; decide

theorem emit3QuarterF4P3 : Statement .emit3QuarterF4P3 := by unfold Statement; decide

theorem emitFullF4P4 : Statement .emitFullF4P4 := by unfold Statement; decide

end Sys2Proof.Laws.TableRow
end

