-- ==== Sys2Proof/Tests/Slice0.lean ====
section
/-! SUPPORT. Tests: the checks of WellFormed refusing, the words of the encoding tables, single steps against the
vectors V<n> of 95_test_vectors.md, and a state and operands that meet the hypotheses of each statement. -/

namespace Sys2Proof.Tests

open Sys2Proof.Machine

/-! ### Helpers -/

/-- Whether a step answers a next state with this property. -/
def nextHas (o : Host.Outcome State Fault Refusal) (p : State → Bool) : Bool :=
  match o with
  | .next t => p t
  | .fault _ => false
  | .refused _ => false

/-- Whether a step answers this fault. -/
def faultsWith (o : Host.Outcome State Fault Refusal) (f : Fault) : Bool :=
  match o with
  | .next _ => false
  | .fault g => g == f
  | .refused _ => false

/-- Whether a step answers this refusal. -/
def refusesWith (o : Host.Outcome State Fault Refusal) (r : Refusal) : Bool :=
  match o with
  | .next _ => false
  | .fault _ => false
  | .refused q => q == r

/-- Bytes placed one after the other. -/
def bytesAt (base : Nat) : List Byte → Memory
  | [] => []
  | b :: rest => (base, b) :: bytesAt (base + 1) rest

/-- What a completed `CONFIGURE 8000, 2` leaves (V30), with another factor if asked. -/
def configured (factor : Phase) : State :=
  { State.reset with
    arg0 := 8000#32, arg1 := 2#32, factor := factor, top := 3000#16, timerMode := .mfrq, prescaler := .x1
    clkGen := { div := 0, src := 0, enable := true }, dacResolution := .bits10, irqPriority := .highest
    irqEnable := true }

/-- Armed over these bytes at 0x20000000, a tick pending. -/
def ticked (factor : Phase) (bytes : List Byte) : State :=
  { configured factor with
    bufferRef := 0x20000000#32, bufferLength := BitVec.ofNat 32 bytes.length, mem := bytesAt 0x20000000 bytes
    timerEnable := true, ovfPending := true }

/-- In mid-window over `[0, 4, 8]`, the values 16 (current) and 0 (previous) latched, a tick pending. -/
def midWindow (factor phase : Phase) : State :=
  { ticked factor [0, 4, 8] with
    phaseCounter := phase, currentValue := 16#10, previousValue := 0#10, trace := [4#10], dacData := 4#10 }

/-- Waiting at the end of `[0, 4, 8]`, factor 1 (V78, after part A). -/
def waiting : State :=
  { ticked 1 [0, 4, 8] with
    timerEnable := false, sampleIndex := 3#32, currentValue := 32#10, previousValue := 16#10
    trace := [16#10, 32#10], dacData := 32#10, syncBusy := true, engineState := .waitSync }

/-- Two latched samples, for the emit rows. -/
def latched (c p : Nat) : State :=
  { ticked 4 [0, 4, 8] with currentValue := BitVec.ofNat 10 c, previousValue := BitVec.ofNat 10 p }

/-! ### WellFormed: an ill-formed term for each check -/

theorem test_wellformed_refuses_reserved_bits : CodeWord.wellFormed (.cmd 0x00010001#32) = false := by decide
theorem test_wellformed_refuses_reserved_operation : CodeWord.wellFormed (.cmd 0#32) = false := by decide
theorem test_wellformed_refuses_illegal_factor : CodeWord.wellFormed (.phase 0b011001#6) = false := by decide
theorem test_wellformed_refuses_phase_zero : CodeWord.wellFormed (.phase 0b100000#6) = false := by decide
theorem test_wellformed_refuses_phase_five : CodeWord.wellFormed (.phase 0b100101#6) = false := by decide
theorem test_wellformed_refuses_read : HostAccess.wellFormed (.read 8#32 .word) = false := by decide
theorem test_wellformed_refuses_narrow :
    HostAccess.wellFormed (.write 0#32 .byte 1#32) = false ∧ HostAccess.wellFormed (.write 4#32 .half 1#32) = false := by
  decide
theorem test_wellformed_refuses_offset :
    HostAccess.wellFormed (.write 12#32 .word 1#32) = false ∧
      HostAccess.wellFormed (.write 2#32 .word 1#32) = false := by decide

/-! ### Decoding: words written out from R64 and R66 -/

theorem test_decode_commands :
    decode (.cmd 0b00000000000000000000000000000001#32) = .ok .configure ∧
      decode (.cmd 0b00000000000000000000000000000010#32) = .ok .play ∧
      decode (.cmd 0b00000000000000000000000000000011#32) = .ok .pause := by decide
/-- R65: 0, 4 and a word with a high bit set are reserved (V40). -/
theorem test_decode_reserved :
    decode (.cmd 0#32) = .error (.reservedCommand 0#32) ∧ decode (.cmd 4#32) = .error (.reservedCommand 4#32) ∧
      decode (.cmd 0x80000001#32) = .error (.reservedCommand 0x80000001#32) := by decide
theorem test_decode_factor_one :
    decode (.phase 0b001001#6) = .ok .emitFullF1P1 ∧ decode (.phase 0b001010#6) = .ok .emitFullF1P2 ∧
      decode (.phase 0b001011#6) = .ok .emitFullF1P3 ∧ decode (.phase 0b001100#6) = .ok .emitFullF1P4 := by decide
theorem test_decode_factor_two :
    decode (.phase 0b010001#6) = .ok .emitHalfF2P1 ∧ decode (.phase 0b010010#6) = .ok .emitFullF2P2 ∧
      decode (.phase 0b010011#6) = .ok .emitFullF2P3 ∧ decode (.phase 0b010100#6) = .ok .emitFullF2P4 := by decide
theorem test_decode_factor_four :
    decode (.phase 0b100001#6) = .ok .emitQuarterF4P1 ∧ decode (.phase 0b100010#6) = .ok .emitHalfF4P2 ∧
      decode (.phase 0b100011#6) = .ok .emit3QuarterF4P3 ∧ decode (.phase 0b100100#6) = .ok .emitFullF4P4 := by decide
theorem test_decode_unlisted_key : decode (.phase 0b011001#6) = .error (.unlistedPhaseKey 0b011001#6) := by decide
/-- A phase word has six bits: one more is no phase word. -/
theorem test_table_word_width : decodeTableWord 8 0b1001001 = none ∧ decodeTableWord 32 0x100000001 = none := by
  decide
/-- R69: a command line is its operand writes and then its `CMD` write. -/
theorem test_command_line :
    (CommandLine.play 0x20000000#32 3#32).accesses =
      [.write 0#32 .word 0x20000000#32, .write 4#32 .word 3#32, .write 8#32 .word 2#32] := by decide

/-! ### CONFIGURE -/

/-- V30. -/
theorem test_configure :
    nextHas (exec .configure { State.reset with arg0 := 8000#32, arg1 := 2#32 }) (fun t =>
      t.factor == 2#3 && t.top == 3000#16 && t.clkGen.enable && t.irqEnable && t.timerMode == .mfrq &&
        t.prescaler == .x1 && t.dacResolution == .bits10 && t.irqPriority == .highest && t.syncBusy &&
        t.hostBusy && !t.timerEnable && t.sampleIndex == 1#32) = true := by decide
/-- V6, V13, V11, V18, V19. -/
theorem test_configure_rates :
    nextHas (exec .configure { State.reset with arg0 := 44100#32, arg1 := 4#32 }) (·.top == 272#16) = true ∧
      nextHas (exec .configure { State.reset with arg0 := 48000000#32, arg1 := 1#32 }) (·.top == 1#16) = true ∧
      refusesWith (exec .configure { State.reset with arg0 := 732#32, arg1 := 1#32 }) .topValueTooLarge = true ∧
      refusesWith (exec .configure { State.reset with arg0 := 0x40000000#32, arg1 := 4#32 }) .topValueZero = true ∧
      refusesWith (exec .configure { State.reset with arg1 := 1#32 }) .zeroSampleFrequency = true := by decide
/-- V20 to V29. -/
theorem test_coerce_factor :
    coerceFactor 1#32 = 1#3 ∧ coerceFactor 2#32 = 2#3 ∧ coerceFactor 4#32 = 4#3 ∧ coerceFactor 0#32 = 1#3 ∧
      coerceFactor 3#32 = 1#3 ∧ coerceFactor 0x104#32 = 1#3 ∧ coerceFactor 0x80000002#32 = 1#3 := by decide

/-! ### PLAY and PAUSE -/

/-- V34. -/
theorem test_play :
    nextHas (exec .play { configured 2 with arg0 := 0x20000000#32, arg1 := 3#32 }) (fun t =>
      t.bufferRef == 0x20000000#32 && t.bufferLength == 3#32 && t.timerEnable && t.syncBusy && t.hostBusy &&
        t.sampleIndex == 1#32 && t.phaseCounter == 0#3) = true := by decide
/-- V40: refused from reset. -/
theorem test_play_unconfigured : refusesWith (exec .play State.reset) .playBeforeConfigure = true := by decide
/-- V35 and V39: the position and the pending tick are kept. -/
theorem test_pause :
    nextHas (exec .pause (midWindow 4 3)) (fun t =>
      !t.timerEnable && t.syncBusy && t.hostBusy && t.phaseCounter == 3#3 && t.sampleIndex == 1#32 &&
        t.ovfPending) = true := by decide
/-- V36. -/
theorem test_pause_disarmed :
    nextHas (exec .pause (configured 2)) (fun t => !t.timerEnable && t.syncBusy && t.hostBusy) = true := by decide

/-! ### The emit rows -/

/-- V52 (80, 40), V59 (512, 508), V56 (1020, 1020), V54 (0, 1020). -/
theorem test_emit_quarter :
    nextHas (exec .emitQuarterF4P1 (latched 80 40)) (·.dacData == 50#10) = true ∧
      nextHas (exec .emitQuarterF4P1 (latched 1020 1020)) (·.dacData == 1020#10) = true := by decide
theorem test_emit_half_factor_two :
    nextHas (exec .emitHalfF2P1 (latched 80 40)) (fun t => t.dacData == 60#10 && t.trace == [60#10]) = true ∧
      nextHas (exec .emitHalfF2P1 (latched 1020 1020)) (·.dacData == 1020#10) = true := by decide
theorem test_emit_half_factor_four :
    nextHas (exec .emitHalfF4P2 (latched 512 508)) (·.dacData == 510#10) = true ∧
      nextHas (exec .emitHalfF4P2 (latched 0 1020)) (fun t => t.dacData == 510#10 && t.sampleIndex == 1#32) = true := by
  decide
theorem test_emit_three_quarter :
    nextHas (exec .emit3QuarterF4P3 (latched 80 40)) (·.dacData == 70#10) = true ∧
      nextHas (exec .emit3QuarterF4P3 (latched 1020 1020)) (·.dacData == 1020#10) = true := by decide
/-- R114 for each of its rows. -/
theorem test_emit_full_rows :
    ∀ i ∈ [Instr.emitFullF1P1, .emitFullF1P2, .emitFullF1P3, .emitFullF1P4, .emitFullF2P2, .emitFullF2P3,
        .emitFullF2P4, .emitFullF4P4],
      nextHas (exec i (latched 80 40)) (fun t =>
        t.dacData == 80#10 && t.trace == [80#10] && t.phaseCounter == 0#3 && t.sampleIndex == 2#32 &&
          t.timerEnable && t.engineState == .idle) = true := by decide
/-- V78, part A and part B. -/
theorem test_end_of_buffer :
    nextHas (State.engineStep { ticked 1 [0, 4, 8] with sampleIndex := 2#32 }) (fun t =>
      t.trace == [32#10] && t.sampleIndex == 3#32 && !t.timerEnable && t.syncBusy && t.engineState == .waitSync &&
        t.ovfPending && nextHas t.syncTurn.engineTurn (fun u =>
          u.sampleIndex == 1#32 && !u.ovfPending && u.engineState == .idle && !u.timerEnable &&
            u.dacData == 32#10 && u.bufferLength == 3#32)) = true := by decide
/-- V63, the first window's four steps: the load, the increments, and one flag clear each. -/
theorem test_engine_steps :
    nextHas (runSteps 8 { ticked 4 [0, 4, 8] with turns := tickTurns 4 }) (fun t =>
      t.trace == [4#10, 8#10, 12#10, 16#10] && t.reads == [0x20000001#32, 0x20000000#32] &&
        t.sampleIndex == 2#32 && t.phaseCounter == 0#3 && !t.ovfPending) = true := by decide
/-- V79, V80: outside the buffer. -/
theorem test_out_of_buffer :
    faultsWith (State.engineStep { ticked 1 [5] with sampleIndex := 1#32 }) (.outOfBufferRead 0x20000001#32) = true := by
  decide

/-! ### The other agents -/

/-- V41 to V43. -/
theorem test_tick :
    (State.tickTurn { configured 1 with timerEnable := true }).ovfPending = true ∧
      (configured 1).tickTurn.ovfPending = false ∧ (ticked 1 [1, 2]).tickTurn.ovfPending = true := by decide
/-- V44 to V46. -/
theorem test_sync_complete :
    (State.syncTurn { configured 1 with syncBusy := true, hostBusy := true }) = configured 1 ∧
      (configured 1).syncTurn = configured 1 ∧ waiting.syncTurn.syncBusy = false ∧
      waiting.syncTurn.engineState = .waitSync := by decide
/-- V48: `top` = 3, from `count` 0. -/
theorem test_clock_cycles :
    let s := { configured 1 with timerEnable := true, top := 3#16 }
    s.clockTurn.count = 1#16 ∧ s.clockTurn.clockTurn.count = 2#16 ∧ s.clockTurn.clockTurn.ovfPending = false ∧
      s.clockTurn.clockTurn.clockTurn.count = 0#16 ∧ s.clockTurn.clockTurn.clockTurn.ovfPending = true := by decide
/-- V40: a read, a narrow write, another offset, a reserved word. -/
theorem test_illegal_accesses :
    refusesWith (State.acceptAccess State.reset (.read 0#32 .word)) .illegalHostAccess = true ∧
      refusesWith (State.acceptAccess State.reset (.write 8#32 .byte 1#32)) .illegalHostAccess = true ∧
      refusesWith (State.acceptAccess State.reset (.write 12#32 .word 1#32)) .illegalHostAccess = true ∧
      refusesWith (State.acceptAccess State.reset (.write 8#32 .word 5#32)) (.reservedCommand 5#32) = true := by decide
/-- R53: a stalled host keeps its access. -/
theorem test_host_stalls :
    nextHas (step { configured 1 with
      hostBusy := true, syncBusy := true, hostQueue := [.write 0#32 .word 7#32], turns := [.host] })
      (fun t => t.arg0 == 8000#32 && t.hostQueue.length == 1) = true := by decide
/-- The word placed for the next step runs: one command and one phase row. -/
theorem test_with_fetch_word :
    nextHas (step (State.reset.withFetchWord 32 1)) (·.top == 6000#16) = true ∧
      nextHas (step (State.reset.withFetchWord 8 0b100001)) (·.trace == [50#10]) = true := by decide

/-! ### Witnesses: each statement's hypotheses met together, for each clause -/

theorem inv_configured : Inv (configured 2) := by constructor <;> decide
theorem inv_ticked : Inv (ticked 4 [0, 4, 8]) := by constructor <;> decide
theorem inv_midWindow : Inv (midWindow 4 3) := by constructor <;> decide
theorem inv_waiting : Inv waiting := by constructor <;> decide

theorem witness_ResetIsQuiescent :
    let s := { State.reset with turns := [.tick] }
    (∃ t, step s = .next t) ∧ s.nextTurn ≠ .engine ∧ s.trace = [] := ⟨⟨_, rfl⟩, by decide⟩

theorem witness_PlatformResetRestoresTheBlock :
    let s := { midWindow 4 3 with turns := [.platform], platformQueue := [.reset] }
    s.turns = .platform :: [] ∧ s.platformQueue = .reset :: [] := by decide

theorem witness_DecodeAndEncodeAgree :
    Instr.wellFormed .emitFullF4P4 = true ∧ decode (.cmd 3#32) = .ok .pause ∧
      decode (.phase 0b100100#6) = .ok .emitFullF4P4 ∧ CodeWord.wellFormed (.cmd 1#32) = true := by decide

theorem witness_PhaseRowsFollowTheDecisionTable :
    legalFactor 1#3 ∧ legalFactor 4#3 ∧ 1 ≤ (1#3).toNat ∧ (1#3).toNat ≤ 4 ∧ 1 ≤ (4#3).toNat ∧ (4#3).toNat ≤ 4 := by
  decide

theorem witness_HostTurnRunsTheDecodedCommand :
    let s := { configured 2 with turns := [.host], hostQueue := [.write 8#32 .word 2#32] }
    s.turns = .host :: [] ∧ s.hostBusy = false ∧ s.engineState = .idle ∧
      s.hostQueue = .write 8#32 .word 2#32 :: [] ∧ decode (.cmd 2#32) = .ok .play ∧
      Instr.wellFormed .play = true := by decide

theorem witness_EngineTurnRunsTheDecodedRow :
    let s := { ticked 4 [0, 4, 8] with turns := [.engine] }
    s.turns = .engine :: [] ∧ s.interruptReady = true ∧
      ∃ loaded, State.loadWindow { s with turns := [] } = .ok loaded ∧
        decode (.phase (loaded.factor ++ (loaded.phaseCounter + 1))) = .ok .emitQuarterF4P1 ∧
        Instr.wellFormed .emitQuarterF4P1 = true ∧
        ∃ t, exec .emitQuarterF4P1 { loaded with phaseCounter := loaded.phaseCounter + 1 } = .next t :=
  ⟨by decide, by decide, _, rfl, by decide, by decide, _, rfl⟩

/-- The smallest (V13) and the largest top value. -/
theorem witness_ConfigureProgramsTheTimer :
    (let s := { State.reset with arg0 := 48000000#32, arg1 := 1#32 };
      s.arg0 ≠ 0#32 ∧ 1 ≤ s.baseClockHz / (s.arg0.toNat * 1) ∧ s.baseClockHz / (s.arg0.toNat * 1) < 2 ^ 16) ∧
    (let s := { State.reset with arg0 := 1#32, arg1 := 3#32, baseClockHz := 65535 };
      s.arg0 ≠ 0#32 ∧ 1 ≤ s.baseClockHz / (s.arg0.toNat * 1) ∧ s.baseClockHz / (s.arg0.toNat * 1) < 2 ^ 16) ∧
    (let s := { State.reset with arg0 := 12000000#32, arg1 := 4#32 };
      s.arg0 ≠ 0#32 ∧ s.arg1 = 4#32 ∧ 1 ≤ s.baseClockHz / (s.arg0.toNat * 4) ∧
        s.baseClockHz / (s.arg0.toNat * 4) < 2 ^ 16) := by decide

theorem witness_ConfigureTreatsOtherFactorsAsOne :
    let s := { State.reset with arg0 := 8000#32, arg1 := 3#32 }
    s.arg1 ≠ 1#32 ∧ s.arg1 ≠ 2#32 ∧ s.arg1 ≠ 4#32 ∧ ∃ t, exec .configure { s with arg1 := 1#32 } = .next t :=
  ⟨by decide, by decide, by decide, _, rfl⟩

/-- A frequency of 0; V16, the smallest product above the base clock; the smallest top value of 2^16. -/
theorem witness_ConfigureRefusesIllegalRates :
    State.reset.arg0 = 0#32 ∧
    (let s := { State.reset with arg0 := 12000001#32, arg1 := 4#32 };
      s.arg0 ≠ 0#32 ∧ s.arg1 = 4#32 ∧ s.baseClockHz < s.arg0.toNat * 4) ∧
    (let s := { State.reset with arg0 := 1#32, arg1 := 3#32, baseClockHz := 65536 };
      s.arg0 ≠ 0#32 ∧ 2 ^ 16 ≤ s.baseClockHz / (s.arg0.toNat * 1)) := by decide

/-- V4. -/
theorem witness_ConfiguredRateIsSlightlyHigh :
    ∃ t, exec .configure { State.reset with arg0 := 44100#32, arg1 := 1#32 } = .next t := ⟨_, rfl⟩

theorem witness_PlayInstallsTheBufferAndArms : (configured 2).irqEnable = true := by decide

theorem witness_PlayBeforeConfigureIsRefused : State.reset.irqEnable = false := by decide

theorem witness_PlayAgainChangesNothingElse :
    let s := { ticked 2 [10, 20, 5] with arg0 := 0x20000000#32, arg1 := 3#32 }
    s.irqEnable = true ∧ s.timerEnable = true ∧ s.bufferRef = s.arg0 ∧ s.bufferLength = s.arg1 := by decide

theorem witness_PauseThenPlayResumes :
    let s := { ticked 2 [10, 20, 5] with arg0 := 0x20000000#32, arg1 := 3#32 }
    s.irqEnable = true ∧ s.timerEnable = true ∧ s.syncBusy = false ∧ s.hostBusy = false ∧
      s.bufferRef = s.arg0 ∧ s.bufferLength = s.arg1 := by decide

/-- Its two outcomes: a next state and a fault. -/
theorem witness_EngineStepIgnoresTheTimer :
    (∃ t, State.engineStep (ticked 4 [0, 4, 8]) = .next t) ∧
      ∃ f, State.engineStep (ticked 4 [5]) = .fault f := ⟨⟨_, rfl⟩, _, rfl⟩

theorem witness_PendingTickSurvivesPause :
    (ticked 2 [10, 20, 5]).interruptReady = true ∧ (∃ paused, exec .pause (ticked 2 [10, 20, 5]) = .next paused) ∧
      ∃ t, State.engineStep (ticked 2 [10, 20, 5]) = .next t := ⟨by decide, ⟨_, rfl⟩, _, rfl⟩

/-- The last index that plays on, an index that wraps to 0, and the first that stops. -/
theorem witness_EmitFullEndsTheWindow :
    (let s := ticked 1 [0, 4, 8];
      (s.sampleIndex + 1).toNat < s.bufferLength.toNat) ∧
    (let s := { ticked 1 [0, 4, 8] with sampleIndex := 0xFFFFFFFF#32 };
      (s.sampleIndex + 1).toNat < s.bufferLength.toNat) ∧
    (let s := { ticked 1 [0, 4, 8] with sampleIndex := 2#32 };
      s.bufferLength.toNat ≤ (s.sampleIndex + 1).toNat) := by decide

theorem witness_EmitHalfEmitsTheMidpoint :
    let s := latched 1020 1020
    s.currentValue.toNat = s.previousValue.toNat ∧ s.currentValue.toNat % 4 = 0 ∧ s.previousValue.toNat % 4 = 0 := by
  decide

theorem witness_EmitQuarterEmitsTheFirstQuarter :
    (latched 1020 1020).currentValue.toNat % 4 = 0 ∧ (latched 1020 1020).previousValue.toNat % 4 = 0 := by decide

theorem witness_EmitThreeQuarterEmitsTheThirdQuarter :
    (latched 1020 0).currentValue.toNat % 4 = 0 ∧ (latched 1020 0).previousValue.toNat % 4 = 0 := by decide

/-- V55 and V54, the ends of the range, for each of the clauses. -/
theorem witness_InterpolationDivisionsAreExact :
    ((latched 1020 0).currentValue.toNat = 4 * (255#8).toNat ∧ (latched 1020 0).previousValue.toNat = 4 * (0#8).toNat) ∧
    ((latched 0 1020).currentValue.toNat = 4 * (0#8).toNat ∧ (latched 0 1020).previousValue.toNat = 4 * (255#8).toNat) ∧
    ∀ i ∈ [Instr.emitQuarterF4P1, .emitHalfF2P1, .emitHalfF4P2, .emit3QuarterF4P3, .emitFullF1P1],
      nextHas (exec i (latched 1020 0)) (fun _ => true) = true ∧
        nextHas (exec i (latched 0 1020)) (fun _ => true) = true := by decide

theorem witness_EmittedValuesLieBetweenTheSamples :
    Instr.emitHalfF2P1 ≠ .configure ∧ Instr.emitHalfF2P1 ≠ .play ∧ Instr.emitHalfF2P1 ≠ .pause ∧
      (latched 1020 0).currentValue.toNat % 4 = 0 ∧ (latched 1020 0).previousValue.toNat % 4 = 0 ∧
      ∃ t, exec .emitHalfF2P1 (latched 1020 0) = .next t :=
  ⟨by decide, by decide, by decide, by decide, by decide, _, rfl⟩

/-- The first index, over the shortest buffer, and a buffer that wraps round the address space. -/
theorem witness_WindowLoadLatchesBothSamples :
    (midWindow 4 3).phaseCounter ≠ 0#3 ∧
    (let s := ticked 4 [1, 2];
      s.phaseCounter = 0#3 ∧ 1 ≤ s.sampleIndex.toNat ∧ s.sampleIndex.toNat < s.bufferLength.toNat ∧
        s.mem.read ((s.bufferRef.toNat + s.sampleIndex.toNat) % 2 ^ 32) = some 2 ∧
        s.mem.read ((s.bufferRef.toNat + s.sampleIndex.toNat - 1) % 2 ^ 32) = some 1) ∧
    (let s := { ticked 4 [1, 2] with bufferRef := 0xFFFFFFFF#32, mem := [(0, 2), (0xFFFFFFFF, 1)] };
      s.phaseCounter = 0#3 ∧ 1 ≤ s.sampleIndex.toNat ∧ s.sampleIndex.toNat < s.bufferLength.toNat ∧
        s.mem.read ((s.bufferRef.toNat + s.sampleIndex.toNat) % 2 ^ 32) = some 2 ∧
        s.mem.read ((s.bufferRef.toNat + s.sampleIndex.toNat - 1) % 2 ^ 32) = some 1) := by decide

/-- V80, the index equal to the length; the last index inside, with nothing placed; and the same with the current
byte placed and the previous one released. -/
theorem witness_ReadsOutsideTheBufferFault :
    (let s := { ticked 1 [5] with turns := [.engine] };
      s.interruptReady = true ∧ s.nextTurn = .engine ∧ s.phaseCounter = 0#3 ∧
        s.bufferLength.toNat ≤ s.sampleIndex.toNat) ∧
    (let s := { ticked 1 [1, 2] with turns := [.engine], mem := [] };
      s.interruptReady = true ∧ s.nextTurn = .engine ∧ s.phaseCounter = 0#3 ∧
        s.sampleIndex.toNat < s.bufferLength.toNat ∧ s.mem.read (s.bufferRef + s.sampleIndex).toNat = none) ∧
    (let s := { ticked 1 [1, 2] with turns := [.engine], mem := [(0x20000001, 2)] };
      s.interruptReady = true ∧ s.nextTurn = .engine ∧ s.phaseCounter = 0#3 ∧ 1 ≤ s.sampleIndex.toNat ∧
        s.sampleIndex.toNat < s.bufferLength.toNat ∧
        (s.mem.read (s.bufferRef + s.sampleIndex).toNat).isSome = true ∧
        s.mem.read (s.bufferRef + (s.sampleIndex - 1)).toNat = none) := by decide

theorem witness_MidWindowStepIgnoresMemory :
    (midWindow 4 3).phaseCounter ≠ 0#3 ∧ ∃ t, State.engineStep (midWindow 4 3) = .next t := ⟨by decide, _, rfl⟩

/-- At the start of a window and in the middle of one. -/
theorem witness_EngineStepEmitsExactlyOnce :
    (Inv (ticked 4 [0, 4, 8]) ∧ (ticked 4 [0, 4, 8]).interruptReady = true ∧
      let s := ticked 4 [0, 4, 8]
      s.phaseCounter = 0#3 ∧ s.sampleIndex.toNat < s.bufferLength.toNat ∧
        (s.mem.read (s.bufferRef + s.sampleIndex).toNat).isSome = true ∧
        (s.mem.read (s.bufferRef + (s.sampleIndex - 1)).toNat).isSome = true) ∧
    Inv (midWindow 4 3) ∧ (midWindow 4 3).interruptReady = true ∧ (midWindow 4 3).phaseCounter ≠ 0#3 :=
  ⟨⟨inv_ticked, by decide, by decide⟩, inv_midWindow, by decide, by decide⟩

/-- A state of the invariant; and a factor of 7 at phase 4, which only the second clause speaks of. -/
theorem witness_DecisionTableNeverFallsThrough :
    (Inv (midWindow 4 3) ∧ (midWindow 4 3).interruptReady = true) ∧
    let s := midWindow 7 4
    let p := (s.phaseCounter + 1).toNat
    s.phaseCounter ≠ 0#3 ∧ s.engineState = .idle ∧ p < s.factor.toNat ∧ p * 2 ≠ s.factor.toNat ∧
      p * 4 ≠ s.factor.toNat ∧ p ≠ 3 := ⟨⟨inv_midWindow, by decide⟩, by decide⟩

/-- A step that plays on and a step that ends the buffer. -/
theorem witness_EngineStepClearsTheFlagOnce :
    (ticked 4 [0, 4, 8]).interruptReady = true ∧
      nextHas (State.engineStep (ticked 4 [0, 4, 8])) (fun t => t.engineState == .idle) = true ∧
      (ticked 1 [1, 2]).interruptReady = true ∧
      nextHas (State.engineStep (ticked 1 [1, 2])) (fun t => t.engineState == .waitSync) = true := by decide

/-- V78, at the boundary index. -/
theorem witness_EndOfBufferStopsInTwoParts :
    let s := { ticked 1 [0, 4, 8] with sampleIndex := 2#32 }
    s.interruptReady = true ∧ legalFactor s.factor ∧ s.phaseCounter.toNat ≤ 3 ∧
      s.factor.toNat ≤ s.phaseCounter.toNat + 1 ∧ s.bufferLength.toNat ≤ (s.sampleIndex + 1).toNat ∧
      ∃ loaded, s.loadWindow = .ok loaded :=
  ⟨by decide, by decide, by decide, by decide, by decide, _, rfl⟩

/-- V31: a factor lowered to 2 at stored phase 1, and to 1 at stored phase 3. -/
theorem witness_LoweredFactorEndsTheWindow :
    ∀ s ∈ [midWindow 2 1, midWindow 1 3],
      s.interruptReady = true ∧ legalFactor s.factor ∧ s.phaseCounter ≠ 0#3 ∧ s.phaseCounter.toNat ≤ 3 ∧
        s.factor.toNat ≤ s.phaseCounter.toNat + 1 := by decide

theorem witness_WindowEmitsItsInterpolation :
    let s := { ticked 4 [0, 4, 8] with turns := tickTurns 4 }
    s.engineState = .idle ∧ s.irqEnable = true ∧ s.timerEnable = true ∧ legalFactor s.factor ∧
      s.phaseCounter = 0#3 ∧ s.sampleIndex.toNat < s.bufferLength.toNat ∧ 1 ≤ s.sampleIndex.toNat ∧
      s.mem.read (s.bufferRef + s.sampleIndex).toNat = some 4 ∧
      s.mem.read (s.bufferRef + (s.sampleIndex - 1)).toNat = some 0 ∧
      s.turns = tickTurns s.factor.toNat ++ [] := by decide

/-- The shortest legal buffer (V75). -/
theorem witness_PassEmitsEveryWindowAndStops :
    let s := { ticked 1 [1, 2] with turns := [.tick, .engine, .syncComplete, .engine] }
    s.engineState = .idle ∧ s.irqEnable = true ∧ s.timerEnable = true ∧ legalFactor s.factor ∧
      s.phaseCounter = 0#3 ∧ s.sampleIndex = 1#32 ∧ 2 ≤ ([1, 2] : List Byte).length ∧ s.bufferHolds [1, 2] ∧
      s.turns = tickTurns (([1, 2] : List Byte).length - 1) ++ .syncComplete :: .engine :: [] := by
  refine ⟨by decide, by decide, by decide, by decide, by decide, by decide, by decide, ⟨by decide, ?_⟩, by decide⟩
  intro i hi
  have h : i = 0#32 ∨ i = 1#32 := by
    simp only [List.length_cons, List.length_nil] at hi
    bv_omega
  rcases h with rfl | rfl <;> decide

theorem witness_TickSetsThePendingFlag :
    (let s := { ticked 1 [1, 2] with turns := [.tick] };
      s.turns = .tick :: [] ∧ s.timerEnable = true) ∧
    (let s := { configured 1 with turns := [.tick] };
      s.turns = .tick :: [] ∧ s.timerEnable = false) := by decide

/-- The last cycle of a period, the one before it, a stopped timer, and the period of `top` = 1. -/
theorem witness_TimerTicksEveryTopCycles :
    (let s := { ticked 1 [1, 2] with turns := [.clockCycle], count := 2999#16 };
      s.turns = .clockCycle :: [] ∧ s.timerEnable = true ∧ s.clkGen.enable = true ∧ s.timerMode = .mfrq ∧
        s.top.toNat ≤ s.count.toNat + 1) ∧
    (let s := { ticked 1 [1, 2] with turns := [.clockCycle], count := 2998#16 };
      s.turns = .clockCycle :: [] ∧ s.timerEnable = true ∧ s.clkGen.enable = true ∧ s.timerMode = .mfrq ∧
        s.count.toNat + 1 < s.top.toNat) ∧
    (let s := { configured 1 with turns := [.clockCycle] };
      s.turns = .clockCycle :: [] ∧ ¬ (s.timerEnable = true ∧ s.clkGen.enable = true ∧ s.timerMode = .mfrq)) ∧
    (let s := { ticked 1 [1, 2] with top := 1#16 };
      s.timerCounts = true ∧ s.count = 0#16 ∧ 1 ≤ s.top.toNat) := by decide

/-- A counter far above the period, and `top` = 1. -/
theorem witness_FirstTickComesWithinTopCycles :
    ∀ s ∈ [{ ticked 1 [1, 2] with ovfPending := false, count := 0xFFFF#16 },
        { ticked 1 [1, 2] with ovfPending := false, top := 1#16 }],
      s.timerCounts = true ∧ 1 ≤ s.top.toNat ∧ s.ovfPending = false := by decide

theorem witness_SyncCompleteEndsTheWait :
    (let s := { waiting with turns := [.syncComplete] };
      s.turns = .syncComplete :: [] ∧ s.syncBusy = true) ∧
    (let s := { configured 1 with turns := [.syncComplete] };
      s.turns = .syncComplete :: [] ∧ s.syncBusy = false) := by decide

/-- A run in which a `PAUSE` waits, its synchronisation completes, and nothing is enabled from then on. -/
def pausedRun : Nat → State
  | 0 => { State.reset with syncBusy := true, hostBusy := true, turns := [.syncComplete] }
  | n + 1 => { State.reset with turnDraws := n }

theorem witness_FairSynchronisationFreesTheHost :
    IsRun pausedRun ∧ Inv (pausedRun 0) ∧ SyncFair pausedRun ∧ (pausedRun 0).hostBusy = true := by
  refine ⟨fun n => ?_, by constructor <;> decide, fun n h => ?_, rfl⟩
  · cases n with
    | zero => rfl
    | succ n =>
      show State.runTurn { State.reset with turnDraws := n + 1 } (Config.freeTurn n) = _
      cases Config.freeTurn n <;> rfl
  · exact absurd (h (n + 1) (Nat.le_succ n)) (by simp [pausedRun, State.reset])

theorem witness_WaitingBlockIsDead :
    let s := { waiting with turns := [.engine] }
    Inv s ∧ s.engineState = .waitSync ∧ s.syncBusy = true ∧ s.nextTurn ≠ .syncComplete ∧ s.nextTurn ≠ .platform :=
  ⟨by constructor <;> decide, by decide⟩

/-- A held access, the two operand writes, a command, and an illegal access. -/
theorem witness_HostAccessesAreHeldTakenOrRefused :
    (let s := { waiting with turns := [.host], hostQueue := [.read 0#32 .word] };
      s.turns = .host :: [] ∧ s.hostQueue = .read 0#32 .word :: [] ∧
        (s.hostBusy = true ∨ s.engineState = .waitSync)) ∧
    decode (.cmd 3#32) = .ok .pause ∧
    ∀ a ∈ [HostAccess.write 0#32 .word 7#32, .write 4#32 .word 7#32, .write 8#32 .word 3#32, .write 3#32 .word 7#32],
      let s := { configured 2 with turns := [.host], hostQueue := [a] }
      s.turns = .host :: [] ∧ s.hostQueue = a :: [] ∧ s.hostBusy = false ∧ s.engineState = .idle ∧
        a.wellFormed = (a != .write 3#32 .word 7#32) := by decide

/-- The words next to the three commands. -/
theorem witness_ReservedCommandsAreRefused :
    (∀ w : Word, let s := { configured 2 with turns := [.host], hostQueue := [.write 8#32 .word w] };
      s.turns = .host :: [] ∧ s.hostQueue = .write 8#32 .word w :: [] ∧ s.hostBusy = false ∧
        s.engineState = .idle) ∧
    ∀ w ∈ [(0#32 : Word), 4#32, 0x80000002#32], w ≠ 0x00000001#32 ∧ w ≠ 0x00000002#32 ∧ w ≠ 0x00000003#32 :=
  ⟨fun _ => ⟨rfl, rfl, rfl, rfl⟩, by simp⟩

/-- The last address of the space, and the release of a byte that is there. -/
theorem witness_PlatformWritesAreReadBack :
    (let s := { configured 2 with turns := [.platform], platformQueue := [.place 0xFFFFFFFF#32 7] };
      s.turns = .platform :: [] ∧ s.platformQueue = .place 0xFFFFFFFF#32 7 :: []) ∧
    (let s := { ticked 2 [1, 2] with turns := [.platform], platformQueue := [.release 0x20000001#32] };
      s.turns = .platform :: [] ∧ s.platformQueue = .release 0x20000001#32 :: [] ∧ s.mem.wf = true) := by decide

theorem witness_StepKeepsTheInvariant :
    let s := { ticked 4 [0, 4, 8] with turns := [.engine] }
    Inv s ∧ ∃ t, step s = .next t := ⟨by constructor <;> decide, _, rfl⟩

theorem witness_OnlyThePlatformWritesMemory :
    let s := { ticked 4 [0, 4, 8] with turns := [.engine] }
    (∃ t, step s = .next t) ∧ s.nextTurn ≠ .platform := ⟨⟨_, rfl⟩, by decide⟩

theorem witness_OnlyTheEngineMovesThePosition :
    let s := { midWindow 4 3 with turns := [.host], hostQueue := [.write 8#32 .word 3#32] }
    (∃ t, step s = .next t) ∧ s.nextTurn ≠ .engine ∧ s.nextTurn ≠ .platform := ⟨⟨_, rfl⟩, by decide⟩

theorem witness_EngineWritesOnlyItsRegisters :
    ∃ t, State.engineTurn (ticked 1 [1, 2]) = .next t := ⟨_, rfl⟩

theorem witness_OnlyTheHostWritesTheConfiguration :
    let s := { ticked 1 [1, 2] with turns := [.engine] }
    (∃ t, step s = .next t) ∧ s.nextTurn ≠ .host ∧ s.nextTurn ≠ .platform := ⟨⟨_, rfl⟩, by decide⟩

/-- A step that accepts `PLAY` and one that does not. -/
theorem witness_BufferChangesOnlyByPlayAndWhole :
    (let s := { configured 2 with turns := [.host], hostQueue := [.write 8#32 .word 2#32] };
      (∃ t, step s = .next t) ∧ s.nextTurn ≠ .platform) ∧
    (let s := { ticked 2 [1, 2] with turns := [.engine] };
      (∃ t, step s = .next t) ∧ s.nextTurn ≠ .platform) := ⟨⟨⟨_, rfl⟩, by decide⟩, ⟨_, rfl⟩, by decide⟩

/-- The flag set by a tick, cleared by the engine; the enable set. -/
theorem witness_FlagAndEnableHaveTheirWriters :
    (let s := { ticked 4 [0, 4, 8] with ovfPending := false, turns := [.tick] };
      s.ovfPending = false ∧ s.nextTurn ≠ .platform ∧ nextHas (step s) (·.ovfPending) = true) ∧
    (let s := { ticked 4 [0, 4, 8] with turns := [.engine] };
      s.ovfPending = true ∧ s.irqEnable = true ∧ s.nextTurn ≠ .platform ∧
        nextHas (step s) (fun t => !t.ovfPending) = true) := by decide

/-- A step that emits and one that does not. -/
theorem witness_DacHoldsBetweenEmissions :
    (let s := { ticked 4 [0, 4, 8] with turns := [.engine] };
      (∃ t, step s = .next t) ∧ s.nextTurn ≠ .platform) ∧
    (let s := { midWindow 4 3 with turns := [.tick] };
      (∃ t, step s = .next t) ∧ s.nextTurn ≠ .platform) := ⟨⟨⟨_, rfl⟩, by decide⟩, ⟨_, rfl⟩, by decide⟩

/-- The shortest legal pass (V75) with its turns listed, free turns after it. -/
def passRun : Nat → State
  | 0 => { ticked 1 [1, 2] with ovfPending := false, turns := [.tick, .engine, .syncComplete, .engine] }
  | n + 1 =>
    match step (passRun n) with
    | .next t => t
    | .fault _ => passRun n
    | .refused _ => passRun n

/-- The state that pass leaves, after some free turns: nothing is enabled. -/
def passed (draws : Nat) : State :=
  { ticked 1 [1, 2] with
    timerEnable := false, ovfPending := false, currentValue := 8#10, previousValue := 4#10, trace := [8#10]
    dacData := 8#10, reads := [0x20000001#32, 0x20000000#32], count := Config.freeCount 0, countDraws := 1
    turnDraws := draws }

theorem step_passed (n : Nat) : step (passed n) = .next (passed (n + 1)) := by
  show State.runTurn (passed (n + 1)) (Config.freeTurn n) = _
  cases Config.freeTurn n <;> rfl

theorem passRun_passed (n : Nat) : passRun (n + 4) = passed n := by
  induction n with
  | zero => rfl
  | succ n ih => rw [show n + 1 + 4 = (n + 4) + 1 by omega, passRun, ih, step_passed]

theorem passRun_isRun : IsRun passRun := by
  intro n
  rcases n with _ | _ | _ | _ | n
  · rfl
  · rfl
  · rfl
  · rfl
  · rw [show n + 1 + 1 + 1 + 1 + 1 = (n + 1) + 4 by omega, show n + 1 + 1 + 1 + 1 = n + 4 by omega,
      passRun_passed, passRun_passed]
    exact step_passed n

theorem inv_passRun : Inv (passRun 0) := by constructor <;> decide

/-- The run is fair: from its fourth state on nothing is enabled. -/
theorem passRun_fair : TickFair passRun ∧ EngineFair passRun ∧ SyncFair passRun := by
  refine ⟨fun n h => ?_, fun n h => ?_, fun n h => ?_⟩ <;>
    exact absurd (h (n + 4) (by omega)) (by rw [passRun_passed]; simp [passed, ticked, configured, State.reset,
      State.engineReady, State.interruptReady, State.stopReady])

theorem passRun_noReset : NoReset passRun := by
  intro n
  have h : (passRun n).platformQueue = [] := by
    rcases n with _ | _ | _ | _ | n
    · rfl
    · rfl
    · rfl
    · rfl
    · rw [show n + 1 + 1 + 1 + 1 = n + 4 by omega, passRun_passed]; rfl
  simp [h]

theorem witness_FairEngineEndsItsStop :
    IsRun passRun ∧ Inv (passRun 0) ∧ SyncFair passRun ∧ EngineFair passRun ∧
      (passRun 2).engineState = .waitSync :=
  ⟨passRun_isRun, inv_passRun, passRun_fair.2.2, passRun_fair.2.1, rfl⟩

theorem witness_FairPassEnds :
    IsRun passRun ∧ Inv (passRun 0) ∧ TickFair passRun ∧ EngineFair passRun ∧ SyncFair passRun ∧
      NoReset passRun ∧ (passRun 0).hostQueue = [] ∧ (passRun 0).timerEnable = true ∧
      (passRun 0).sampleIndex = 1#32 ∧ (passRun 0).phaseCounter = 0#3 ∧ 2 ≤ (passRun 0).bufferLength.toNat :=
  ⟨passRun_isRun, inv_passRun, passRun_fair.1, passRun_fair.2.1, passRun_fair.2.2, passRun_noReset, by decide⟩

end Sys2Proof.Tests
end

