-- ==== Sys2Proof/Proofs/Reset.lean ====
section
/-! The registers right after reset (10_state.md R34): one lemma per register to which the table gives a value, so
that no proof unfolds `State.reset`. -/

namespace Sys2Proof.Machine

/-! ### The position in the sample buffer (R14, R15) -/

@[simp] theorem State.reset_sampleIndex : State.reset.sampleIndex = 1#32 := rfl
@[simp] theorem State.reset_phaseCounter : State.reset.phaseCounter = 0#3 := rfl

/-! ### The enables, the pending tick and the synchronisation -/

@[simp] theorem State.reset_clkGen_enable : State.reset.clkGen.enable = false := rfl
@[simp] theorem State.reset_irqEnable : State.reset.irqEnable = false := rfl
@[simp] theorem State.reset_timerEnable : State.reset.timerEnable = false := rfl
@[simp] theorem State.reset_ovfPending : State.reset.ovfPending = false := rfl
@[simp] theorem State.reset_syncBusy : State.reset.syncBusy = false := rfl

/-! ### The observed output and the agents -/

@[simp] theorem State.reset_trace : State.reset.trace = [] := rfl
@[simp] theorem State.reset_engineState : State.reset.engineState = .idle := rfl
@[simp] theorem State.reset_hostBusy : State.reset.hostBusy = false := rfl

/-- Settles O1, register by register. -/
theorem resetGivesTheTabledValues : Obligations.ResetGivesTheTabledValues :=
  ⟨State.reset_sampleIndex, State.reset_phaseCounter, State.reset_clkGen_enable, State.reset_irqEnable,
    State.reset_timerEnable, State.reset_ovfPending, State.reset_syncBusy, State.reset_trace,
    State.reset_engineState, State.reset_hostBusy⟩

end Sys2Proof.Machine
end

