-- ==== Sys2Proof/Proofs/HostPort.lean ====
section
/-! The host port (20_memory.md R52, R53): where an access goes, what the block does with it when it takes it, and when
the host's turn takes it at all. -/

namespace Sys2Proof

/-! ### The target of an access -/

@[simp] theorem HostAccess.target_arg0 (v : Word) : target (.write 0#32 .word v) = some (.arg0, v) := rfl
@[simp] theorem HostAccess.target_arg1 (v : Word) : target (.write 4#32 .word v) = some (.arg1, v) := rfl
@[simp] theorem HostAccess.target_cmd (w : Word) : target (.write 8#32 .word w) = some (.cmd, w) := rfl

/-- The accesses with no target are the ill-formed ones. -/
theorem HostAccess.target_eq_none_iff (a : HostAccess) : a.target = none ↔ a.wellFormed = false := by
  cases a with
  | read offset width => simp [target, wellFormed]
  | write offset width value =>
    cases width with
    | byte => simp [target, wellFormed]
    | half => simp [target, wellFormed]
    | word =>
      by_cases h0 : offset = 0#32
      · simp [target, wellFormed, h0]
      · by_cases h4 : offset = 4#32
        · simp [target, wellFormed, h4]
        · by_cases h8 : offset = 8#32 <;> simp [target, wellFormed, h0, h4, h8]

end Sys2Proof

namespace Sys2Proof.Machine

/-! ### The block takes an access -/

theorem acceptAccess_arg0 {a : HostAccess} {v : Word} (h : a.target = some (.arg0, v)) (s : State) :
    s.acceptAccess a = .next { s with arg0 := v } := by
  simp [State.acceptAccess, h]

theorem acceptAccess_arg1 {a : HostAccess} {v : Word} (h : a.target = some (.arg1, v)) (s : State) :
    s.acceptAccess a = .next { s with arg1 := v } := by
  simp [State.acceptAccess, h]

theorem acceptAccess_command {a : HostAccess} {w : Word} {i : Instr} (h : a.target = some (.cmd, w))
    (hi : decode (.cmd w) = .ok i) (s : State) : s.acceptAccess a = exec i s := by
  simp [State.acceptAccess, h, hi]

theorem acceptAccess_illegal {a : HostAccess} (h : a.target = none) (s : State) :
    s.acceptAccess a = .refused .illegalHostAccess := by
  simp [State.acceptAccess, h]

/-! ### The host's turn -/

theorem hostReady_iff (s : State) : s.hostReady = true ↔ s.hostBusy = false ∧ s.engineState = .idle := by
  simp [State.hostReady]

theorem not_hostReady_iff (s : State) : ¬ s.hostReady = true ↔ s.hostBusy = true ∨ s.engineState = .waitSync := by
  cases he : s.engineState <;> simp [State.hostReady, he]

/-- A host whose port is not ready stalls (R32). -/
theorem hostTurn_stalls {s : State} (h : ¬ s.hostReady = true) : s.hostTurn = .next s := if_neg h

theorem hostTurn_ready {s : State} {a : HostAccess} {queue : List HostAccess} (h : s.hostReady = true)
    (hq : s.hostQueue = a :: queue) : s.hostTurn = State.acceptAccess { s with hostQueue := queue } a := by
  simp [State.hostTurn, h, hq]

/-- A listed turn of a host that stalls takes the turn and nothing else. -/
theorem step_host_stalled {s : State} {rest : List Turn} (ht : s.turns = .host :: rest)
    (h : s.hostBusy = true ∨ s.engineState = .waitSync) : step s = .next { s with turns := rest } := by
  rw [step_listed_turn ht]
  exact hostTurn_stalls ((not_hostReady_iff _).2 h)

/-- A listed turn of a host whose port is ready is the block taking the next access. -/
theorem step_host_ready {s : State} {rest : List Turn} {a : HostAccess} {queue : List HostAccess}
    (ht : s.turns = .host :: rest) (hq : s.hostQueue = a :: queue) (hb : s.hostBusy = false)
    (he : s.engineState = .idle) :
    step s = State.acceptAccess { s with turns := rest, hostQueue := queue } a := by
  rw [step_listed_turn ht]
  exact hostTurn_ready ((hostReady_iff _).2 ⟨hb, he⟩) hq

/-- Settles O43: the host stalls, or its access goes where its target says. -/
theorem hostAccessesAreHeldTakenOrRefused : Obligations.HostAccessesAreHeldTakenOrRefused := by
  intro s rest a queue ht hq
  refine ⟨step_host_stalled ht, fun hb he => ?_⟩
  rw [step_host_ready ht hq hb he]
  refine ⟨?arg0, ?arg1, ?command, ?illegal⟩
  case arg0 =>
    rintro v rfl
    exact acceptAccess_arg0 (HostAccess.target_arg0 v) _
  case arg1 =>
    rintro v rfl
    exact acceptAccess_arg1 (HostAccess.target_arg1 v) _
  case command =>
    rintro w i rfl hi
    exact acceptAccess_command (HostAccess.target_cmd w) hi _
  case illegal =>
    intro hill
    exact acceptAccess_illegal (a.target_eq_none_iff.2 hill) _

end Sys2Proof.Machine
end

