-- ==== Sys2Proof/Proofs/CommandWords.lean ====
section
/-! Format `CMD` (30_encoding.md R64, R65): the words of the three commands, the reserved words, and what the block does
with a reserved word the host writes. -/

namespace Sys2Proof.Machine

/-! ### The three commands (R64) -/

@[simp] theorem decode_cmd_configure : decode (.cmd 1#32) = .ok .configure := rfl
@[simp] theorem decode_cmd_play : decode (.cmd 2#32) = .ok .play := rfl
@[simp] theorem decode_cmd_pause : decode (.cmd 3#32) = .ok .pause := rfl

/-! ### The reserved words (R65) -/

/-- Rejection of a `CMD` word names that word and no other reason. -/
theorem decode_cmd_error {w : Word} {e : Undecodable} (h : decode (.cmd w) = .error e) :
    e = .reservedCommand w := by
  simp only [decode, decodeCommand] at h
  split at h
  · cases h
  · cases h; rfl

theorem decode_cmd_reserved {w : Word} (h1 : w ≠ 1#32) (h2 : w ≠ 2#32) (h3 : w ≠ 3#32) :
    decode (.cmd w) = .error (.reservedCommand w) := by
  cases h : decode (.cmd w) with
  | error e => rw [decode_cmd_error h]
  | ok i =>
    obtain ⟨hw, -⟩ | ⟨hw, -⟩ | ⟨hw, -⟩ := decode_cmd_ok h
    · exact absurd hw h1
    · exact absurd hw h2
    · exact absurd hw h3

/-- Settles O4, by the rows of the opcode map in their order. -/
theorem commandWordsDecode : Obligations.CommandWordsDecode := by
  intro w
  split_ifs with h1 h2 h3
  · rw [h1, decode_cmd_configure]
  · rw [h2, decode_cmd_play]
  · rw [h3, decode_cmd_pause]
  · exact decode_cmd_reserved h1 h2 h3

/-! ### A reserved word at the host port -/

theorem acceptAccess_undecodable {a : HostAccess} {w : Word} {e : Undecodable} (h : a.target = some (.cmd, w))
    (he : decode (.cmd w) = .error e) (s : State) : s.acceptAccess a = .refused (.reservedCommand w) := by
  simp [State.acceptAccess, h, he]

/-- Settles O44: the free port takes the access, and its word decodes to nothing. -/
theorem reservedCommandsAreRefused : Obligations.ReservedCommandsAreRefused := by
  intro s rest w queue ht hq hb he h1 h2 h3
  rw [step_host_ready ht hq hb he]
  exact acceptAccess_undecodable (HostAccess.target_cmd w) (decode_cmd_reserved h1 h2 h3) _

end Sys2Proof.Machine
end

