-- ==== Sys2Proof/Proofs/Configuration.lean ====
section
/-! `CONFIGURE` (40_clock_configurator.md R80 to R88): the factor and the top value it computes from its operands, the
registers it programs at a legal rate, and the rates it refuses. -/

namespace Sys2Proof.Machine

theorem exec_configure (s : State) : exec .configure s = execConfigure s := rfl

/-! ### The operands as numbers (R81, R82) -/

/-- The stored factor has the value of a legal request, though a `Phase` keeps 3 of its 32 bits, and is 1 for any
other request (R81). -/
theorem coerceFactor_toNat (o : Word) :
    (coerceFactor o).toNat = if o = 1#32 ∨ o = 2#32 ∨ o = 4#32 then o.toNat else 1 := by
  split
  case isTrue h => obtain rfl | rfl | rfl := h <;> rfl
  case isFalse h =>
    obtain ⟨h1, h2, h4⟩ : o ≠ 1#32 ∧ o ≠ 2#32 ∧ o ≠ 4#32 := by simpa only [not_or] using h
    rw [coerceFactor_of_illegal o h1 h2 h4]
    rfl

/-- The requested top value, with R81's choice of the factor written out on `ARG1` (R82). -/
theorem requestedTop_eq (s : State) :
    s.requestedTop = s.baseClockHz /
      (s.arg0.toNat * if s.arg1 = 1#32 ∨ s.arg1 = 2#32 ∨ s.arg1 = 4#32 then s.arg1.toNat else 1) := by
  rw [State.requestedTop, topValue, coerceFactor_toNat]

/-- A top value that fits the timer's 16 bits is stored whole (R19, R88). -/
theorem programClock_top_toNat {n : Nat} (h : n < 2 ^ 16) (s : State) (f : Phase) :
    (s.programClock f n).top.toNat = n := by
  rw [State.programClock_top, BitVec.toNat_ofNat, Nat.mod_eq_of_lt h]

/-! ### The refused rates (R80, R88) -/

theorem execConfigure_zeroFrequency {s : State} (h : s.arg0 = 0#32) :
    execConfigure s = .refused .zeroSampleFrequency := if_pos h

theorem execConfigure_topZero {s : State} (h0 : s.arg0 ≠ 0#32) (h : s.requestedTop = 0) :
    execConfigure s = .refused .topValueZero := by
  rw [execConfigure, if_neg h0, if_pos h]

theorem execConfigure_topTooLarge {s : State} (h0 : s.arg0 ≠ 0#32) (h : 2 ^ 16 ≤ s.requestedTop) :
    execConfigure s = .refused .topValueTooLarge := by
  rw [execConfigure, if_neg h0, if_neg (by omega), if_pos h]

/-- Settles O12: a product above the base clock leaves the quotient 0; the other two tests are the hypotheses. -/
theorem configureRefusesIllegalRates : Obligations.ConfigureRefusesIllegalRates := by
  intro s factor
  have htop : s.requestedTop = s.baseClockHz / (s.arg0.toNat * factor) := requestedTop_eq s
  rw [exec_configure]
  refine ⟨execConfigure_zeroFrequency, fun h0 hlt => ?zero, fun h0 hle => ?tooLarge⟩
  case zero => exact execConfigure_topZero h0 (htop.trans (Nat.div_eq_of_lt hlt))
  case tooLarge => exact execConfigure_topTooLarge h0 (htop ▸ hle)

/-! ### The legal rates (R81 to R84, R86) -/

/-- Settles O10: at a legal rate the outcome is `State.programClock` with the host waiting and a fresh count, and no
bit of the factor or of the quotient is lost. -/
theorem configureProgramsTheTimer : Obligations.ConfigureProgramsTheTimer := by
  intro s factor quotient h0 h1 h2
  have htop : s.requestedTop = quotient := requestedTop_eq s
  have hfits : s.requestedTop < 2 ^ 16 := htop ▸ h2
  have hlegal : s.legalRate := ⟨h0, htop ▸ h1, hfits⟩
  refine ⟨_, (exec_configure s).trans (execConfigure_legal hlegal), ?factor, ?top, rfl, fun _ => rfl⟩
  case factor => exact coerceFactor_toNat s.arg1
  case top => exact (programClock_top_toNat hfits s (coerceFactor s.arg1)).trans htop

end Sys2Proof.Machine
end

