-- ==== Sys2Proof/Proofs/Pause.lean ====
section
/-! `PAUSE` (41_playback_control.md R93, R94): the synchronised disable with the host waiting for it. -/

namespace Sys2Proof.Machine

theorem exec_pause (s : State) : exec .pause s = .next s.disarm.startHostWait := rfl

/-- The whole record after a disable (R93, R115): three registers and the draw of the count, nothing else. -/
theorem State.disarm_eq (s : State) :
    s.disarm = { s with timerEnable := false, syncBusy := true, count := Config.freeCount s.countDraws,
                        countDraws := s.countDraws + 1 } := rfl

/-- The host's wait sets its own bit only, a synchronisation being under way (R32, R93). -/
theorem startHostWait_of_syncBusy {s : State} (h : s.syncBusy = true) :
    s.startHostWait = { s with hostBusy := true } := by
  rw [State.startHostWait, ← h]

/-- `PAUSE` as one record update, with the value the count draws (R93, R94). -/
theorem exec_pause_eq (s : State) :
    exec .pause s =
      .next { s with timerEnable := false, syncBusy := true, hostBusy := true,
                     count := Config.freeCount s.countDraws, countDraws := s.countDraws + 1 } := by
  rw [exec_pause, startHostWait_of_syncBusy (State.disarm_syncBusy s), State.disarm_eq]

/-- Settles O17: `PAUSE` is the disable with the host waiting, and neither of them writes memory. -/
theorem pauseOnlyDisarms : Obligations.PauseOnlyDisarms := by
  intro s
  exact ⟨_, exec_pause_eq s, rfl, fun _ => rfl⟩

end Sys2Proof.Machine
end

