-- ==== Sys2Proof/Proofs/Interpolation.lean ====
section
/-! The emit micro-operations (43_sample_advance_engine.md R114 to R118): the value each one emits and the key that
selects its row, and what follows for rescaled samples, the exact divisions of R122 and the range of R123. -/

namespace Sys2Proof.Machine

/-! ### The keys of the rows (R66) -/

theorem phaseKey_inj {f p f' p' : Phase} : f ++ p = f' ++ p' ↔ f = f' ∧ p = p' := by
  constructor
  · intro h
    have hleft := congrArg (BitVec.extractLsb' 3 3) h
    have hright := congrArg (BitVec.extractLsb' 0 3) h
    rw [BitVec.extractLsb'_append_eq_left, BitVec.extractLsb'_append_eq_left] at hleft
    rw [BitVec.extractLsb'_append_eq_right, BitVec.extractLsb'_append_eq_right] at hright
    exact ⟨hleft, hright⟩
  · rintro ⟨rfl, rfl⟩
    rfl

/-- The rows of R66 compare the whole key, and each with the key the encoder gives its row. -/
theorem phaseRows_encode : ∀ row ∈ phaseRows, row.mask = BitVec.allOnes 6 ∧ encode row.instr = .phase row.pattern := by
  decide

theorem decode_phase_iff_encode {key : PhaseKey} {i : Instr} :
    decode (.phase key) = .ok i ↔ encode i = .phase key := by
  constructor
  · intro h
    simp only [decode, decodePhase] at h
    split at h
    case h_1 row hfind =>
      cases h
      obtain ⟨hmask, hpattern⟩ := phaseRows_encode row (List.mem_of_find?_eq_some hfind)
      have hkey : row.selects key = true := List.find?_some (p := fun row : OpcodeRow 6 => row.selects key) hfind
      rw [OpcodeRow.selects, hmask, BitVec.and_allOnes, beq_iff_eq] at hkey
      rw [hpattern, hkey]
    case h_2 => cases h
  · intro h
    cases i <;> cases h <;> rfl

/-- A row whose key is written out is selected by that factor and phase and by no other pair. -/
theorem decode_phase_iff {i : Instr} {f' p' : Phase} (hi : encode i = .phase (f' ++ p')) (f p : Phase) :
    decode (.phase (f ++ p)) = .ok i ↔ f = f' ∧ p = p' := by
  rw [decode_phase_iff_encode, hi, CodeWord.phase.injEq, phaseKey_inj, eq_comm, @eq_comm _ p']

/-! ### The value a micro-operation emits -/

/-- The value a micro-operation emits between two samples. -/
def emission (current previous : DacValue) : MicroOp → DacValue
  | .full => current
  | .half => halfPoint current previous
  | .quarter => quarterPoint current previous
  | .threeQuarter => threeQuarterPoint current previous

theorem emitFull_dacData (s : State) : s.emitFull.dacData = s.currentValue := by
  obtain ⟨-, h⟩ | ⟨-, h⟩ := emitFull_cases s <;> rw [h] <;> rfl

theorem runMicroOp_dacData (s : State) (op : MicroOp) :
    (s.runMicroOp op).dacData = emission s.currentValue s.previousValue op := by
  cases op with
  | full => exact emitFull_dacData s
  | half | quarter | threeQuarter => rfl

/-- Every micro-operation but `EMIT_FULL` emits its value and writes nothing else. -/
theorem runMicroOp_interior {op : MicroOp} (h : op ≠ .full) (s : State) :
    s.runMicroOp op = s.emit (emission s.currentValue s.previousValue op) := by
  cases op with
  | full => exact absurd rfl h
  | half | quarter | threeQuarter => rfl

theorem exec_phase_row_dacData {i : Instr} {op : MicroOp} (h : microOpOf i = some op) {s t : State}
    (he : exec i s = .next t) : t.dacData = emission s.currentValue s.previousValue op := by
  rw [exec_phase_row h] at he
  cases he
  exact runMicroOp_dacData s op

theorem microOpOf_isSome {i : Instr} (hc : i ≠ .configure) (hl : i ≠ .play) (hp : i ≠ .pause) :
    ∃ op, microOpOf i = some op := by
  cases i
  case configure => exact absurd rfl hc
  case play => exact absurd rfl hl
  case pause => exact absurd rfl hp
  all_goals exact ⟨_, rfl⟩

/-- Ten bits hold no multiple of 4 above 1020. -/
theorem rescaled_le {v : DacValue} (h : v.toNat % 4 = 0) : v.toNat ≤ 1020 := by
  have := v.isLt
  omega

/-! ### The three interpolating rows (R116 to R118) -/

/-- An interpolating row pushes its value to the DAC, appends it to the trace and changes nothing else (R130). -/
theorem exec_interior_row {i : Instr} {op : MicroOp} (h : microOpOf i = some op) (hop : op ≠ .full) (s : State) :
    ∃ t, exec i s = .next t ∧ t.dacData = emission s.currentValue s.previousValue op ∧
      t.trace = s.trace ++ [t.dacData] ∧ t = { s with dacData := t.dacData, trace := t.trace } ∧ sameMemory s t := by
  exact ⟨_, (exec_phase_row h s).trans (congrArg _ (runMicroOp_interior hop s)), rfl, rfl, rfl, fun _ => rfl⟩

/-- Settles O22: `EMIT_HALF` emits `halfPoint`, whose sum of two 10-bit samples is below 2048. -/
theorem emitHalfEmitsTheMidpoint : Obligations.EmitHalfEmitsTheMidpoint := by
  refine ⟨?row, fun f p => ⟨decode_phase_iff rfl f p, decode_phase_iff rfl f p⟩⟩
  intro i hi s c p
  have hop : microOpOf i = some .half := by
    rcases List.mem_pair.1 hi with rfl | rfl <;> rfl
  obtain ⟨t, hexec, hdac, htrace, hframe, hmem⟩ := exec_interior_row hop (by decide) s
  have hval : t.dacData.toNat = (c + p) / 2 := by
    rw [hdac]
    exact halfPoint_toNat s.currentValue s.previousValue
  have hc : c < 2 ^ 10 := s.currentValue.isLt
  have hp : p < 2 ^ 10 := s.previousValue.isLt
  refine ⟨t, hexec, hval, htrace, hframe, hmem, by omega, fun heq => ?equal, fun hc4 hp4 => ?rescaled⟩
  case equal =>
    have hmean : (c + p) / 2 = c := by omega
    exact BitVec.eq_of_toNat_eq (hval.trans hmean)
  case rescaled =>
    have hcle : c ≤ 1020 := rescaled_le hc4
    have hple : p ≤ 1020 := rescaled_le hp4
    constructor <;> omega

/-- Settles O23: `EMIT_QUARTER` emits `quarterPoint`. -/
theorem emitQuarterEmitsTheFirstQuarter : Obligations.EmitQuarterEmitsTheFirstQuarter := by
  refine ⟨?row, decode_phase_iff rfl⟩
  intro s c p
  obtain ⟨t, hexec, hdac, htrace, hframe, hmem⟩ :=
    exec_interior_row (i := .emitQuarterF4P1) (op := .quarter) rfl (by decide) s
  have hval : t.dacData.toNat = (c + 3 * p) / 4 := by
    rw [hdac]
    exact quarterPoint_toNat s.currentValue s.previousValue
  have hc : c < 2 ^ 10 := s.currentValue.isLt
  have hp : p < 2 ^ 10 := s.previousValue.isLt
  refine ⟨t, hexec, hval, htrace, hframe, hmem, by omega, fun hc4 hp4 => ?rescaled⟩
  have hcle : c ≤ 1020 := rescaled_le hc4
  have hple : p ≤ 1020 := rescaled_le hp4
  omega

/-- Settles O24: `EMIT_3QUARTER` emits `threeQuarterPoint`. -/
theorem emitThreeQuarterEmitsTheThirdQuarter : Obligations.EmitThreeQuarterEmitsTheThirdQuarter := by
  refine ⟨?row, decode_phase_iff rfl⟩
  intro s c p
  obtain ⟨t, hexec, hdac, htrace, hframe, hmem⟩ :=
    exec_interior_row (i := .emit3QuarterF4P3) (op := .threeQuarter) rfl (by decide) s
  have hval : t.dacData.toNat = (3 * c + p) / 4 := by
    rw [hdac]
    exact threeQuarterPoint_toNat s.currentValue s.previousValue
  have hc : c < 2 ^ 10 := s.currentValue.isLt
  have hp : p < 2 ^ 10 := s.previousValue.isLt
  refine ⟨t, hexec, hval, htrace, hframe, hmem, by omega, fun hc4 hp4 => ?rescaled⟩
  have hcle : c ≤ 1020 := rescaled_le hc4
  have hple : p ≤ 1020 := rescaled_le hp4
  omega

/-! ### Rescaled samples (R122, R123) -/

/-- Settles O25: four times a byte makes every weighted sum a multiple of its divisor. -/
theorem interpolationDivisionsAreExact : Obligations.InterpolationDivisionsAreExact := by
  intro s t c p hc hp
  refine ⟨fun h => ?quarter, fun h => ?half, fun h => ?threeQuarter, fun i hi => ?full⟩
  case quarter =>
    rw [exec_phase_row_dacData (op := .quarter) rfl h, emission, quarterPoint_toNat]
    omega
  case half =>
    have hd : t.dacData = halfPoint s.currentValue s.previousValue :=
      h.elim (exec_phase_row_dacData (op := .half) rfl) (exec_phase_row_dacData (op := .half) rfl)
    rw [hd, halfPoint_toNat]
    omega
  case threeQuarter =>
    rw [exec_phase_row_dacData (op := .threeQuarter) rfl h, emission, threeQuarterPoint_toNat]
    omega
  case full =>
    have hop : microOpOf i = some .full := by
      revert i
      decide
    intro h
    rw [exec_phase_row_dacData hop h, emission, hc]

/-- A weighted mean with weights that add up to the divisor lies between the two samples (R123). -/
theorem emission_between (c p : DacValue) (op : MicroOp) :
    min c.toNat p.toNat ≤ (emission c p op).toNat ∧ (emission c p op).toNat ≤ max c.toNat p.toNat := by
  cases op with
  | full => exact ⟨Nat.min_le_left _ _, Nat.le_max_left _ _⟩
  | half => rw [emission, halfPoint_toNat]; omega
  | quarter => rw [emission, quarterPoint_toNat]; omega
  | threeQuarter => rw [emission, threeQuarterPoint_toNat]; omega

/-- Settles O26: the emission lies between two samples that are at most 1020. -/
theorem emittedValuesLieBetweenTheSamples : Obligations.EmittedValuesLieBetweenTheSamples := by
  intro i s t hconfigure hplay hpause hc hp he
  obtain ⟨op, hop⟩ := microOpOf_isSome hconfigure hplay hpause
  obtain ⟨hmin, hmax⟩ := emission_between s.currentValue s.previousValue op
  rw [← exec_phase_row_dacData hop he] at hmin hmax
  have hle : t.dacData.toNat ≤ 1020 := hmax.trans (Nat.max_le.2 ⟨rescaled_le hc, rescaled_le hp⟩)
  refine ⟨hmin, hmax, hle, fun h1023 => ?_⟩
  rw [h1023] at hle
  exact absurd hle (by decide)

end Sys2Proof.Machine
end

