-- ==== Sys2Proof/Proofs/Window.lean ====
section
/-! A window (43_sample_advance_engine.md R111 to R115, R124): `factor` times a tick and its engine step. All but the
last of them emit a point of the linear interpolation and go to the next phase; the last one ends the window. -/

namespace Sys2Proof.Machine

/-! ### Runs -/

theorem runSteps_succ {s t : State} (h : step s = .next t) (n : Nat) : runSteps (n + 1) s = runSteps n t := by
  simp only [runSteps, h]

theorem runSteps_two {s t u : State} (h : step s = .next t) (h' : step t = .next u) : runSteps 2 s = .next u := by
  rw [runSteps_succ h, runSteps_succ h', runSteps]

/-- A run that goes on from where a first run has ended. -/
theorem runSteps_add {m : Nat} {s t : State} (h : runSteps m s = .next t) (n : Nat) :
    runSteps (m + n) s = runSteps n t := by
  induction m generalizing s with
  | zero =>
    cases h
    rw [Nat.zero_add]
  | succ m ih =>
    cases hstep : step s with
    | next u =>
      rw [runSteps_succ hstep] at h
      rw [Nat.succ_add, runSteps_succ hstep]
      exact ih h
    | fault f => simp [runSteps, hstep] at h
    | refused r => simp [runSteps, hstep] at h

/-! ### The points of the interpolation (R122, R124) -/

/-- The value emitted at phase `k` of a window: as many parts of the current sample as phases have passed, out of
`factor` parts in all. -/
def interpolate (factor : Nat) (current previous : DacValue) (k : Nat) : DacValue :=
  BitVec.ofNat 10 ((k * current.toNat + (factor - k) * previous.toNat) / factor)

/-- At the last phase of a window the interpolation has reached the real sample (R114). -/
theorem interpolate_last {factor : Nat} (h : 0 < factor) (c p : DacValue) : interpolate factor c p factor = c := by
  rw [interpolate, Nat.sub_self, Nat.zero_mul, Nat.add_zero, Nat.mul_div_cancel_left _ h, BitVec.ofNat_toNat,
    BitVec.setWidth_eq]

/-- Before the last phase the decision table picks the interpolating micro-operation of that phase (R113). -/
theorem selectMicroOp_interior {f : Phase} (hf : legalFactor f) {k : Nat} (h1 : 1 ≤ k) (hk : k < f.toNat) :
    ∃ op, selectMicroOp f.toNat k = some op ∧ op ≠ .full ∧ ∀ c p, emission c p op = interpolate f.toNat c p k := by
  have hcases : f = 2#3 ∧ k = 1 ∨ f = 4#3 ∧ k = 1 ∨ f = 4#3 ∧ k = 2 ∨ f = 4#3 ∧ k = 3 := by
    rcases hf with rfl | rfl | rfl <;> simp at hk ⊢ <;> omega
  rcases hcases with ⟨rfl, rfl⟩ | ⟨rfl, rfl⟩ | ⟨rfl, rfl⟩ | ⟨rfl, rfl⟩
  · refine ⟨.half, rfl, by decide, fun c p => congrArg (BitVec.ofNat 10) ?_⟩
    change (c.toNat + p.toNat) / 2 = (1 * c.toNat + 1 * p.toNat) / 2
    omega
  · refine ⟨.quarter, rfl, by decide, fun c p => congrArg (BitVec.ofNat 10) ?_⟩
    change (c.toNat + 3 * p.toNat) / 4 = (1 * c.toNat + 3 * p.toNat) / 4
    omega
  · refine ⟨.half, rfl, by decide, fun c p => congrArg (BitVec.ofNat 10) ?_⟩
    change (c.toNat + p.toNat) / 2 = (2 * c.toNat + 2 * p.toNat) / 4
    omega
  · refine ⟨.threeQuarter, rfl, by decide, fun c p => congrArg (BitVec.ofNat 10) ?_⟩
    change (3 * c.toNat + p.toNat) / 4 = (3 * c.toNat + 1 * p.toNat) / 4
    omega

/-- The points of phases 1 to `factor` between two rescaled samples are the emissions the table of R124 lists. -/
theorem interpolate_rescale {f : Phase} (hf : legalFactor f) (c p : Byte) :
    ((List.range' 1 f.toNat).map (interpolate f.toNat (rescale c) (rescale p))).map BitVec.toNat =
      windowEmissions f c p := by
  have := c.isLt
  have := p.isLt
  rcases hf with rfl | rfl | rfl <;>
    simp [List.range', interpolate, rescale_toNat, windowEmissions] <;> omega

/-! ### A tick and its engine step -/

/-- The engine is free to step and the timer armed, at a legal factor: what a tick finds while a buffer plays. -/
structure State.Playing (s : State) : Prop where
  idle : s.engineState = .idle
  irq : s.irqEnable = true
  armed : s.timerEnable = true
  factor : legalFactor s.factor

/-- The state an engine step starts from: its tick has set the flag, and both turns are taken. -/
def State.afterTick (s : State) (rest : List Turn) : State :=
  { s.raiseOverflow with turns := rest }

/-- The load writes the cached samples and the record of reads only (R111). -/
theorem State.Playing.loaded {s loaded : State} (hs : s.Playing) (h : s.loadWindow = .ok loaded) : loaded.Playing := by
  obtain ⟨-, rfl⟩ | ⟨-, c, p, -, -, rfl⟩ := loadWindow_ok h
  · exact hs
  · exact ⟨hs.idle, hs.irq, hs.armed, hs.factor⟩

theorem loadWindow_afterTick {s loaded : State} (h : s.loadWindow = .ok loaded) (rest : List Turn) :
    (s.afterTick rest).loadWindow = .ok (loaded.afterTick rest) := by
  obtain ⟨hp, rfl⟩ | ⟨h0, c, p, hc, hp, rfl⟩ := loadWindow_ok h
  · exact loadWindow_midWindow hp
  · exact loadWindow_latches (s := s.afterTick rest) h0 hc hp

/-- The micro-operation that the decision table picks is the one step 3 runs (R113). -/
theorem runPhase_selected {s : State} {op : MicroOp}
    (h : selectMicroOp s.factor.toNat s.phaseCounter.toNat = some op) : s.runPhase = .next (s.runMicroOp op) := by
  obtain ⟨op', hop', hrun⟩ | ⟨hnone, -⟩ := runPhase_next s
  · rw [h] at hop'
    cases hop'
    exact hrun
  · rw [h] at hnone
    cases hnone

/-- A tick and its engine step, for the state the load gives and the micro-operation the table picks (R101, R110). -/
theorem tickPair_runs {s loaded : State} {rest : List Turn} {op : MicroOp} (hs : s.Playing)
    (ht : s.turns = .tick :: .engine :: rest) (hl : s.loadWindow = .ok loaded)
    (hop : selectMicroOp loaded.factor.toNat (loaded.phaseCounter + 1).toNat = some op) :
    runSteps 2 s = .next ((loaded.afterTick rest).nextPhase.runMicroOp op).finishStep := by
  have htick : step s = .next (s.afterTick (.engine :: rest)) := by
    rw [step_listed_turn ht]
    exact congrArg Host.Outcome.next (if_pos hs.armed)
  have hready : (s.afterTick rest).interruptReady = true := (interruptReady_iff _).2 ⟨rfl, hs.irq, hs.idle⟩
  have hengine : step (s.afterTick (.engine :: rest)) = (s.afterTick rest).engineStep :=
    (step_listed_turn (turn := .engine) (rest := rest) rfl).trans (engineTurn_ready hready)
  have hrun : (loaded.afterTick rest).nextPhase.runPhase = .next ((loaded.afterTick rest).nextPhase.runMicroOp op) :=
    runPhase_selected hop
  exact runSteps_two htick (hengine.trans (engineStep_eq (loadWindow_afterTick hl rest) hrun))

/-! ### The steps of a window -/

/-- The increment of a phase below a legal factor stays inside its three bits (R112). -/
theorem phase_succ {p f : Phase} (hf : legalFactor f) (h : p.toNat < f.toNat) : (p + 1).toNat = p.toNat + 1 := by
  have hle : f.toNat ≤ 4 := by rcases hf with rfl | rfl | rfl <;> decide
  bv_omega

/-- What an engine step before the last phase of a window leaves (R112, R116 to R118, R120). -/
def State.afterPoint (s : State) (v : DacValue) (rest : List Turn) : State :=
  { (s.nextPhase.emit v).clearOverflow with turns := rest }

@[simp] theorem State.afterPoint_phaseCounter (s : State) (v : DacValue) (rest : List Turn) :
    (s.afterPoint v rest).phaseCounter = s.phaseCounter + 1 := rfl

theorem State.Playing.afterPoint {s : State} (hs : s.Playing) (v : DacValue) (rest : List Turn) :
    (s.afterPoint v rest).Playing := ⟨hs.idle, hs.irq, hs.armed, hs.factor⟩

/-- The point of the phase that the next engine step reaches. -/
def State.nextPoint (s : State) : DacValue :=
  interpolate s.factor.toNat s.currentValue s.previousValue (s.phaseCounter.toNat + 1)

/-- The points of the next `n` phases. -/
def State.pointsAhead (s : State) (n : Nat) : List DacValue :=
  (List.range' (s.phaseCounter.toNat + 1) n).map (interpolate s.factor.toNat s.currentValue s.previousValue)

theorem State.pointsAhead_succ {s : State} (h : (s.phaseCounter + 1).toNat = s.phaseCounter.toNat + 1) (n : Nat)
    (v : DacValue) (rest : List Turn) :
    s.pointsAhead (n + 1) = s.nextPoint :: (s.afterPoint v rest).pointsAhead n := by
  rw [pointsAhead, pointsAhead, State.afterPoint_phaseCounter, h]
  rfl

/-- The window's last emission, before the length test: the flag is still set (R114). -/
def State.windowEmitted (s : State) (points : List DacValue) (rest : List Turn) : State :=
  { s.nextWindow with
    dacData := s.currentValue, trace := s.trace ++ points, ovfPending := true, turns := rest }

@[simp] theorem State.windowEmitted_trace (s : State) (points : List DacValue) (rest : List Turn) :
    (s.windowEmitted points rest).trace = s.trace ++ points := rfl

/-- What the last engine step of a window leaves, `points` being what the window has emitted (R114, R115, R120). -/
def State.afterWindow (s : State) (points : List DacValue) (rest : List Turn) : State :=
  if s.bufferLength.toNat ≤ (s.sampleIndex + 1).toNat then (s.windowEmitted points rest).beginStop
  else (s.windowEmitted points rest).clearOverflow

theorem afterWindow_end {s : State} (h : s.bufferLength.toNat ≤ (s.sampleIndex + 1).toNat) (points : List DacValue)
    (rest : List Turn) : s.afterWindow points rest = (s.windowEmitted points rest).beginStop := if_pos h

theorem afterWindow_next {s : State} (h : (s.sampleIndex + 1).toNat < s.bufferLength.toNat) (points : List DacValue)
    (rest : List Turn) : s.afterWindow points rest = (s.windowEmitted points rest).clearOverflow :=
  if_neg (Nat.not_le.2 h)

/-- A point emitted by the step before is one more in front of the points still to come. -/
theorem afterPoint_afterWindow (s : State) (v : DacValue) (points : List DacValue) (turns rest : List Turn) :
    (s.afterPoint v turns).afterWindow points rest = s.afterWindow (v :: points) rest := by
  have htrace : (s.afterPoint v turns).trace ++ points = s.trace ++ v :: points := List.append_assoc _ _ _
  have hemitted : (s.afterPoint v turns).windowEmitted points rest = s.windowEmitted (v :: points) rest := by
    rw [State.windowEmitted, htrace]
    rfl
  rw [State.afterWindow, hemitted]
  rfl

theorem tickPair_interior {s loaded : State} {rest : List Turn} (hs : s.Playing)
    (ht : s.turns = .tick :: .engine :: rest) (hl : s.loadWindow = .ok loaded)
    (hk : loaded.phaseCounter.toNat + 1 < loaded.factor.toNat) :
    runSteps 2 s = .next (loaded.afterPoint loaded.nextPoint rest) := by
  have hload := hs.loaded hl
  have hphase := phase_succ hload.factor (Nat.lt_of_succ_lt hk)
  obtain ⟨op, hop, hfull, hvalue⟩ := selectMicroOp_interior hload.factor (Nat.le_add_left 1 _) hk
  rw [tickPair_runs hs ht hl (hphase ▸ hop), runMicroOp_interior hfull, State.nextPoint, ← hvalue]
  exact congrArg Host.Outcome.next (finishStep_idle hload.idle)

theorem tickPair_last {s loaded : State} {rest : List Turn} (hs : s.Playing)
    (ht : s.turns = .tick :: .engine :: rest) (hl : s.loadWindow = .ok loaded)
    (hk : loaded.factor.toNat ≤ (loaded.phaseCounter + 1).toNat) :
    runSteps 2 s = .next (loaded.afterWindow [loaded.currentValue] rest) := by
  rw [tickPair_runs hs ht hl (if_pos hk)]
  refine congrArg Host.Outcome.next ?_
  obtain ⟨hend, hfull⟩ | ⟨hnext, hfull⟩ := emitFull_cases (loaded.afterTick rest).nextPhase
  · rw [afterWindow_end (s := loaded) hend]
    exact (congrArg State.finishStep hfull).trans (finishStep_waiting rfl)
  · rw [afterWindow_next (s := loaded) hnext]
    exact (congrArg State.finishStep hfull).trans (finishStep_idle (hs.loaded hl).idle)

/-- The rest of a window: a tick for every phase still to come emits the points of those phases. The state at the
start may still have its samples to load. -/
theorem tickTurns_finish_window (n : Nat) {s loaded : State} {rest : List Turn} (hs : s.Playing)
    (ht : s.turns = tickTurns (n + 1) ++ rest) (hl : s.loadWindow = .ok loaded)
    (hn : loaded.phaseCounter.toNat + (n + 1) = loaded.factor.toNat) :
    runSteps (2 * (n + 1)) s = .next (loaded.afterWindow (loaded.pointsAhead (n + 1)) rest) := by
  induction n generalizing s loaded with
  | zero =>
    have hphase := phase_succ (hs.loaded hl).factor (p := loaded.phaseCounter) (by omega)
    have hlast : loaded.pointsAhead 1 = [loaded.currentValue] := by
      rw [State.pointsAhead, List.range'_one, List.map_singleton, hn, interpolate_last (by omega)]
    rw [hlast]
    exact tickPair_last hs ht hl (by omega)
  | succ n ih =>
    have hphase := phase_succ (hs.loaded hl).factor (p := loaded.phaseCounter) (by omega)
    have hpoint := tickPair_interior (rest := tickTurns (n + 1) ++ rest) hs ht hl (by omega)
    have hmid := (hs.loaded hl).afterPoint loaded.nextPoint (tickTurns (n + 1) ++ rest)
    have hnoload : loaded.phaseCounter + 1 ≠ 0#3 := by bv_omega
    have hcount : (loaded.phaseCounter + 1).toNat + (n + 1) = loaded.factor.toNat := by omega
    have hrest := ih hmid rfl (loadWindow_midWindow hnoload) hcount
    rw [show 2 * (n + 1 + 1) = 2 + 2 * (n + 1) by omega, runSteps_add hpoint, hrest, afterPoint_afterWindow,
      ← State.pointsAhead_succ hphase]

/-! ### A whole window (R124) -/

theorem State.Playing.ticks {s : State} (hs : s.Playing) : ∃ n, s.factor.toNat = n + 1 := by
  rcases hs.factor with h | h | h <;> rw [h] <;> exact ⟨_, rfl⟩

/-- From the start of a window whose two bytes are placed, `factor` ticks lead to its end, with the emissions of
R124 made. -/
theorem tickTurns_window {s : State} {c p : Byte} {rest : List Turn} (hs : s.Playing) (h0 : s.phaseCounter = 0#3)
    (hc : s.readElement s.sampleIndex = .ok c) (hp : s.readElement (s.sampleIndex - 1) = .ok p)
    (ht : s.turns = tickTurns s.factor.toNat ++ rest) :
    ∃ points, points.map BitVec.toNat = windowEmissions s.factor c p ∧
      runSteps (2 * s.factor.toNat) s = .next ((s.latch c p).afterWindow points rest) := by
  obtain ⟨n, hn⟩ := hs.ticks
  have hphase : (s.latch c p).phaseCounter.toNat = 0 := congrArg BitVec.toNat h0
  refine ⟨_, interpolate_rescale hs.factor c p, ?_⟩
  have hrun := tickTurns_finish_window n hs (hn ▸ ht) (loadWindow_latches h0 hc hp)
    (by rw [hphase, Nat.zero_add]; exact hn.symm)
  rw [State.pointsAhead, hphase, ← hn] at hrun
  exact hrun

/-- Settles O35: the window's points are emitted, and its last step has made the length test on the next index. -/
theorem windowEmitsItsInterpolation : Obligations.WindowEmitsItsInterpolation := by
  intro s c p rest hidle hirq harmed hfactor h0 hlt h1 hc hp ht
  have hs : s.Playing := ⟨hidle, hirq, harmed, hfactor⟩
  have hprev : (s.sampleIndex - 1).toNat < s.bufferLength.toNat := by bv_omega
  have hnext : (s.sampleIndex + 1).toNat = s.sampleIndex.toNat + 1 := by bv_omega
  obtain ⟨points, hpoints, hrun⟩ :=
    tickTurns_window hs h0 (readElement_placed hlt hc) (readElement_placed hprev hp) ht
  refine ⟨_, hrun, ?_⟩
  have htrace : ((s.latch c p).windowEmitted points rest).trace.map BitVec.toNat =
      s.trace.map BitVec.toNat ++ windowEmissions s.factor c p := by
    rw [State.windowEmitted_trace, List.map_append, hpoints, State.latch_trace]
  by_cases hend : s.bufferLength.toNat ≤ (s.sampleIndex + 1).toNat
  · rw [afterWindow_end (s := s.latch c p) hend]
    exact ⟨htrace, rfl, rfl, rfl, fun _ => hnext ▸ hend, fun _ => rfl⟩
  · rw [afterWindow_next (s := s.latch c p) (Nat.lt_of_not_le hend)]
    refine ⟨htrace, rfl, rfl, rfl, fun hwait => ?_, fun hlen => absurd (hnext ▸ hlen) hend⟩
    exact absurd (hidle.symm.trans hwait) (by decide)

end Sys2Proof.Machine
end

