-- ==== Sys2Proof/Proofs/Pass.lean ====
section
/-! A complete pass over the buffer (43_sample_advance_engine.md R115, R126): window after window up to the last one,
whose length test begins the stop, and the stop's part B once its synchronisation is over. -/

namespace Sys2Proof.Machine

/-! ### The emissions of a pass -/

theorem tickTurns_add (m n : Nat) : tickTurns (m + n) = tickTurns m ++ tickTurns n := by
  induction m with
  | zero => rw [Nat.zero_add]; rfl
  | succ m ih => rw [Nat.succ_add]; exact congrArg (Turn.tick :: Turn.engine :: ·) ih

theorem windowEmissions_length {f : Phase} (hf : legalFactor f) (c p : Byte) :
    (windowEmissions f c p).length = f.toNat := by
  rw [← interpolate_rescale hf, List.length_map, List.length_map, List.length_range']

theorem passEmissions_cons (f : Phase) (p c : Byte) (bytes : List Byte) :
    passEmissions f (p :: c :: bytes) = windowEmissions f c p ++ passEmissions f (c :: bytes) := rfl

/-- `N` bytes have `N - 1` windows of `factor` emissions each (R126). -/
theorem passEmissions_length {f : Phase} (hf : legalFactor f) (bytes : List Byte) :
    (passEmissions f bytes).length = (bytes.length - 1) * f.toNat := by
  induction bytes with
  | nil => simp [passEmissions]
  | cons p bytes ih =>
    cases bytes with
    | nil => simp [passEmissions]
    | cons c bytes =>
      rw [passEmissions_cons, List.length_append, windowEmissions_length hf, ih]
      simp only [List.length_cons, Nat.add_sub_cancel]
      ring

/-- The emissions from window `i` on are those of window `i` and of the windows after it. -/
theorem passEmissions_drop (f : Phase) {bytes : List Byte} {i : Nat} (h1 : 1 ≤ i) (hi : i < bytes.length) :
    passEmissions f (bytes.drop (i - 1)) =
      windowEmissions f bytes[i] bytes[i - 1] ++ passEmissions f (bytes.drop i) := by
  rw [List.drop_eq_getElem_cons (by omega : i - 1 < bytes.length), Nat.sub_add_cancel h1,
    List.drop_eq_getElem_cons hi, passEmissions_cons]

/-- No window follows that of the last byte. -/
theorem passEmissions_drop_last (f : Phase) {bytes : List Byte} {i : Nat} (hi : i + 1 = bytes.length) :
    passEmissions f (bytes.drop i) = [] := by
  rw [List.drop_eq_getElem_cons (by omega : i < bytes.length), List.drop_eq_nil_of_le hi.ge]
  rfl

/-! ### One window after the other -/

theorem readElement_holds {s : State} {bytes : List Byte} (hb : s.bufferHolds bytes) {index : Word} {i : Nat}
    (hindex : index.toNat = i) (hi : i < bytes.length) : s.readElement index = .ok bytes[i] := by
  obtain ⟨hlen, hread⟩ := hb
  subst hindex
  exact readElement_placed (hlen ▸ hi) ((hread index hi).trans (List.getElem?_eq_getElem hi))

/-- The block is about to start a window inside a buffer that holds `bytes`. -/
structure State.AtWindow (s : State) (bytes : List Byte) : Prop where
  playing : s.Playing
  boundary : s.phaseCounter = 0#3
  from_one : 1 ≤ s.sampleIndex.toNat
  inside : s.sampleIndex.toNat < bytes.length
  holds : s.bufferHolds bytes

theorem State.AtWindow.index_succ {s : State} {bytes : List Byte} (h : s.AtWindow bytes) :
    (s.sampleIndex + 1).toNat = s.sampleIndex.toNat + 1 := by
  obtain ⟨hlen, -⟩ := h.holds
  have hlt := h.inside
  bv_omega

/-- The emissions of the window, and what the pass has still to emit before it and after it. -/
theorem State.AtWindow.runs {s : State} {bytes : List Byte} {rest : List Turn} (h : s.AtWindow bytes)
    (ht : s.turns = tickTurns s.factor.toNat ++ rest) :
    ∃ (c p : Byte) (points : List DacValue),
      runSteps (2 * s.factor.toNat) s = .next ((s.latch c p).afterWindow points rest) ∧
      (s.trace ++ points).map BitVec.toNat ++ passEmissions s.factor (bytes.drop s.sampleIndex.toNat) =
        s.trace.map BitVec.toNat ++ passEmissions s.factor (bytes.drop (s.sampleIndex.toNat - 1)) := by
  have hone := h.from_one
  have hprev : (s.sampleIndex - 1).toNat = s.sampleIndex.toNat - 1 := by bv_omega
  have hread := readElement_holds h.holds rfl h.inside
  have hreadPrev := readElement_holds h.holds hprev ((Nat.sub_le _ _).trans_lt h.inside)
  obtain ⟨points, hpoints, hrun⟩ := tickTurns_window h.playing h.boundary hread hreadPrev ht
  refine ⟨_, _, points, hrun, ?_⟩
  rw [passEmissions_drop s.factor hone h.inside, List.map_append, hpoints, List.append_assoc]

/-- A window that is not the last leads to the next one (R114). -/
theorem State.AtWindow.next {s : State} {bytes : List Byte} {rest : List Turn} (h : s.AtWindow bytes)
    (hmore : s.sampleIndex.toNat + 1 < bytes.length) (ht : s.turns = tickTurns s.factor.toNat ++ rest) :
    ∃ t : State, runSteps (2 * s.factor.toNat) s = .next t ∧ t.AtWindow bytes ∧ t.factor = s.factor ∧
      t.sampleIndex.toNat = s.sampleIndex.toNat + 1 ∧
      t.trace.map BitVec.toNat ++ passEmissions s.factor (bytes.drop s.sampleIndex.toNat) =
        s.trace.map BitVec.toNat ++ passEmissions s.factor (bytes.drop (s.sampleIndex.toNat - 1)) ∧
      t.reads.length = s.reads.length + 2 ∧ t.turns = rest := by
  obtain ⟨c, p, points, hrun, htrace⟩ := h.runs ht
  have hindex := h.index_succ
  obtain ⟨hidle, hirq, harmed, hfactor⟩ := h.playing
  have hlt : (s.sampleIndex + 1).toNat < s.bufferLength.toNat := by rw [hindex, h.holds.1]; exact hmore
  rw [afterWindow_next (s := s.latch c p) hlt] at hrun
  have hnext : State.AtWindow ((s.latch c p).windowEmitted points rest).clearOverflow bytes :=
    ⟨⟨hidle, hirq, harmed, hfactor⟩, rfl, hindex.symm ▸ Nat.le_add_left 1 _, hindex.symm ▸ hmore, h.holds⟩
  exact ⟨_, hrun, hnext, rfl, hindex, htrace, List.length_append, rfl⟩

/-- The last window leads to part A of the stop (R115). -/
theorem State.AtWindow.last {s : State} {bytes : List Byte} {rest : List Turn} (h : s.AtWindow bytes)
    (hlast : s.sampleIndex.toNat + 1 = bytes.length) (ht : s.turns = tickTurns s.factor.toNat ++ rest) :
    ∃ u : State, runSteps (2 * s.factor.toNat) s = .next u.beginStop ∧
      u.trace.map BitVec.toNat =
        s.trace.map BitVec.toNat ++ passEmissions s.factor (bytes.drop (s.sampleIndex.toNat - 1)) ∧
      u.reads.length = s.reads.length + 2 ∧ u.phaseCounter = 0#3 ∧ u.turns = rest := by
  obtain ⟨c, p, points, hrun, htrace⟩ := h.runs ht
  have hend : s.bufferLength.toNat ≤ (s.sampleIndex + 1).toNat := by rw [h.index_succ, h.holds.1, hlast]
  rw [afterWindow_end (s := s.latch c p) hend] at hrun
  rw [passEmissions_drop_last s.factor hlast, List.append_nil] at htrace
  exact ⟨_, hrun, htrace, List.length_append, rfl, rfl⟩

/-- The ticks of the `n + 1` windows left lead to part A of the stop, with the emissions of those windows and two
reads for each of them made. -/
theorem tickTurns_finish_pass (n : Nat) {s : State} {bytes : List Byte} {rest : List Turn} (h : s.AtWindow bytes)
    (hn : s.sampleIndex.toNat + (n + 1) = bytes.length)
    (ht : s.turns = tickTurns ((n + 1) * s.factor.toNat) ++ rest) :
    ∃ u : State, runSteps (2 * ((n + 1) * s.factor.toNat)) s = .next u.beginStop ∧
      u.trace.map BitVec.toNat =
        s.trace.map BitVec.toNat ++ passEmissions s.factor (bytes.drop (s.sampleIndex.toNat - 1)) ∧
      u.reads.length = s.reads.length + 2 * (n + 1) ∧ u.phaseCounter = 0#3 ∧ u.turns = rest := by
  induction n generalizing s with
  | zero =>
    rw [Nat.zero_add, Nat.one_mul] at ht ⊢
    exact h.last hn ht
  | succ n ih =>
    have hsplit : (n + 1 + 1) * s.factor.toNat = s.factor.toNat + (n + 1) * s.factor.toNat := by ring
    rw [hsplit, tickTurns_add, List.append_assoc] at ht
    obtain ⟨t, hrun, hnext, hfactor, hindex, htrace, hreads, hturns⟩ := h.next (by omega) ht
    obtain ⟨u, hrun', htrace', hreads', hphase', hturns'⟩ := ih hnext (by omega) (hfactor ▸ hturns)
    rw [hfactor] at hrun' htrace'
    rw [hindex, Nat.add_sub_cancel, htrace] at htrace'
    refine ⟨u, ?_, htrace', by omega, hphase', hturns'⟩
    rw [hsplit, Nat.mul_add, runSteps_add hrun, hrun']

/-! ### The stop -/

/-- Other turns to come, and nothing else changed. -/
def State.withTurns (s : State) (turns : List Turn) : State :=
  { s with turns := turns }

@[simp] theorem State.withTurns_trace (s : State) (l : List Turn) : (s.withTurns l).trace = s.trace := rfl
@[simp] theorem State.withTurns_reads (s : State) (l : List Turn) : (s.withTurns l).reads = s.reads := rfl
@[simp] theorem State.withTurns_phaseCounter (s : State) (l : List Turn) :
    (s.withTurns l).phaseCounter = s.phaseCounter := rfl
@[simp] theorem State.withTurns_timerEnable (s : State) (l : List Turn) :
    (s.withTurns l).timerEnable = s.timerEnable := rfl
@[simp] theorem State.withTurns_syncBusy (s : State) (l : List Turn) : (s.withTurns l).syncBusy = s.syncBusy := rfl
@[simp] theorem State.withTurns_engineState (s : State) (l : List Turn) :
    (s.withTurns l).engineState = s.engineState := rfl
@[simp] theorem State.withTurns_turns (s : State) (l : List Turn) : (s.withTurns l).turns = l := rfl

theorem step_withTurns {s : State} {turn : Turn} {rest : List Turn} (h : s.turns = turn :: rest) :
    step s = (s.withTurns rest).runTurn turn := step_listed_turn h

theorem step_sync_busy {s : State} {rest : List Turn} (ht : s.turns = .syncComplete :: rest)
    (hb : s.syncBusy = true) : step s = .next (s.endSync.withTurns rest) := by
  rw [step_withTurns ht]
  exact congrArg Host.Outcome.next (if_pos hb)

theorem step_engine_stopReady {s : State} {rest : List Turn} (ht : s.turns = .engine :: rest)
    (hw : s.engineState = .waitSync) (hb : s.syncBusy = false) : step s = .next (s.withTurns rest).endStop := by
  rw [step_withTurns ht]
  exact engineTurn_stopReady ((stopReady_iff _).2 ⟨hw, hb⟩)

/-- From part A of the stop, the synchroniser's turn and the engine's end it (R104, R115). -/
theorem runSteps_endStop {u : State} {rest : List Turn} (ht : u.turns = .syncComplete :: .engine :: rest) :
    runSteps 2 u.beginStop = .next (State.endStop ((u.beginStop.endSync.withTurns (.engine :: rest)).withTurns rest)) :=
  runSteps_two (step_sync_busy (by simpa using ht) (by simp)) (step_engine_stopReady (by simp) (by simp) (by simp))

/-- Settles O36: the windows up to the last, then the stop. -/
theorem passEmitsEveryWindowAndStops : Obligations.PassEmitsEveryWindowAndStops := by
  intro s bytes rest hidle hirq harmed hfactor h0 hindex hlen hb ht
  obtain ⟨n, hn⟩ : ∃ n, bytes.length = n + 2 := ⟨bytes.length - 2, by omega⟩
  have hone : s.sampleIndex.toNat = 1 := congrArg BitVec.toNat hindex
  have hstart : s.AtWindow bytes := ⟨⟨hidle, hirq, harmed, hfactor⟩, h0, hone.ge, hone ▸ hlen, hb⟩
  have hwindows : bytes.length - 1 = n + 1 := by omega
  rw [hwindows] at ht ⊢
  obtain ⟨u, hrun, htrace, hreads, hphase, hturns⟩ :=
    tickTurns_finish_pass n hstart (by omega) ht
  rw [hone, Nat.sub_self, List.drop_zero] at htrace
  have hcount := congrArg List.length htrace
  rw [List.length_append, List.length_map, List.length_map, passEmissions_length hfactor, hwindows] at hcount
  refine ⟨_, (runSteps_add hrun 2).trans (runSteps_endStop hturns), ?stopped⟩
  simp [htrace, hcount, hreads, hphase, Config.firstIndex]

end Sys2Proof.Machine
end

