-- ==== Sys2Proof/Proofs/OutputSink.lean ====
section
/-! The output sink (44_output_sink.md R130, R132): the load and the flag clear of an engine step emit nothing, and
the one micro-operation between them emits one value. -/

namespace Sys2Proof.Machine

/-! ### What a micro-operation and the flag clear do to the trace and the DAC -/

theorem emitFull_trace (s : State) : s.emitFull.trace = s.trace ++ [s.currentValue] := by
  obtain ⟨-, h⟩ | ⟨-, h⟩ := emitFull_cases s <;> rw [h] <;> rfl

theorem runMicroOp_trace (s : State) (op : MicroOp) :
    (s.runMicroOp op).trace = s.trace ++ [emission s.currentValue s.previousValue op] := by
  cases op with
  | full => exact emitFull_trace s
  | half | quarter | threeQuarter => rfl

/-- Step 4 writes the pending flag or nothing (R120). -/
theorem finishStep_cases (s : State) : s.finishStep = s.returnFromInterrupt ∨ s.finishStep = s := by
  cases h : s.engineState with
  | idle => exact .inl (finishStep_idle h)
  | waitSync => exact .inr (finishStep_waiting h)

@[simp] theorem State.finishStep_trace (s : State) : s.finishStep.trace = s.trace := by
  obtain h | h := finishStep_cases s
  · rw [h, State.returnFromInterrupt_trace]
  · rw [h]

@[simp] theorem State.finishStep_dacData (s : State) : s.finishStep.dacData = s.dacData := by
  obtain h | h := finishStep_cases s
  · rw [h, State.returnFromInterrupt_dacData]
  · rw [h]

/-! ### The load and the decoded row of an engine step -/

/-- A load whose two samples are placed answers; the index before one that is at least 1 is in the buffer too (R14). -/
theorem loadWindow_answers {s : State} (h1 : 1 ≤ s.sampleIndex.toNat)
    (hplaced : s.phaseCounter = 0#3 → s.sampleIndex.toNat < s.bufferLength.toNat ∧
      (s.mem.read (s.elementAddr s.sampleIndex).toNat).isSome = true ∧
      (s.mem.read (s.elementAddr (s.sampleIndex - 1)).toNat).isSome = true) :
    ∃ loaded, s.loadWindow = .ok loaded := by
  by_cases h0 : s.phaseCounter = 0#3
  · obtain ⟨hlt, hcurrent, hprevious⟩ := hplaced h0
    obtain ⟨c, hc⟩ := Option.isSome_iff_exists.1 hcurrent
    obtain ⟨p, hp⟩ := Option.isSome_iff_exists.1 hprevious
    have hlt' : (s.sampleIndex - 1).toNat < s.bufferLength.toNat := by bv_omega
    exact ⟨_, loadWindow_latches h0 (readElement_placed hlt hc) (readElement_placed hlt' hp)⟩
  · exact ⟨s, loadWindow_midWindow h0⟩

/-- The load leaves the key of the phase decode and the trace alone (R111). -/
theorem loadWindow_keeps {s loaded : State} (h : s.loadWindow = .ok loaded) :
    loaded.factor = s.factor ∧ loaded.phaseCounter = s.phaseCounter ∧ loaded.trace = s.trace := by
  obtain ⟨-, rfl⟩ | ⟨-, c, p, -, -, rfl⟩ := loadWindow_ok h <;> exact ⟨rfl, rfl, rfl⟩

/-- With a legal factor, the phase after a stored one of at most 3 has a row, which runs its micro-operation (R113). -/
theorem runPhase_nextPhase {s : State} (hf : legalFactor s.factor) (hp : s.phaseCounter.toNat ≤ 3) :
    ∃ op, s.nextPhase.runPhase = .next (s.nextPhase.runMicroOp op) := by
  have hsucc : (s.phaseCounter + 1).toNat = s.phaseCounter.toNat + 1 := by bv_omega
  obtain ⟨i, op, hi, hop⟩ := decode_legal_key s.factor (s.phaseCounter + 1) hf (by omega) (by omega)
  exact ⟨op, (runPhase_row (s := s.nextPhase) hi).trans (exec_phase_row hop _)⟩

/-- Settles O30: the load answers, the key it keeps has a row, and the row's micro-operation emits once. -/
theorem engineStepEmitsExactlyOnce : Obligations.EngineStepEmitsExactlyOnce := by
  intro s hinv hready hplaced
  obtain ⟨-, hirq, -⟩ := (interruptReady_iff s).1 hready
  obtain ⟨hfactor, -⟩ := hinv.configured hirq
  obtain ⟨loaded, hload⟩ := loadWindow_answers hinv.index_from_one hplaced
  obtain ⟨hfkeep, hpkeep, htrace⟩ := loadWindow_keeps hload
  obtain ⟨op, hrun⟩ := runPhase_nextPhase (hfkeep ▸ hfactor) (hpkeep ▸ hinv.phase_range)
  refine ⟨_, emission loaded.currentValue loaded.previousValue op, engineStep_eq hload hrun, ?trace, ?dac⟩
  case trace => rw [State.finishStep_trace, runMicroOp_trace, State.nextPhase_trace, htrace]; rfl
  case dac => rw [State.finishStep_dacData, runMicroOp_dacData]; rfl

end Sys2Proof.Machine
end

