-- ==== Sys2Proof/Proofs/ResetTurn.lean ====
section
/-! Reset (70_reset_and_hazards.md R160, R161): which agents have a step to take in the reset state, what the
platform's reset does in any state, and which turns can write the emission trace. -/

namespace Sys2Proof.Machine

/-! ### The turns that pass, and the platform's reset -/

/-- A timer that is not armed lets its turn pass (R101). -/
theorem tickTurn_disarmed {s : State} (h : s.timerEnable = false) : s.tickTurn = s := by
  simp [State.tickTurn, h]

/-- Without a synchronisation to complete the synchroniser lets its turn pass (R104). -/
theorem syncTurn_notBusy {s : State} (h : s.syncBusy = false) : s.syncTurn = s := by
  simp [State.syncTurn, h]

theorem reset_interruptReady : State.reset.interruptReady = false := by
  simp [State.interruptReady]

theorem reset_stopReady : State.reset.stopReady = false := by
  simp [State.stopReady]

theorem reset_engineReady : State.reset.engineReady = false := by
  simp [State.engineReady, reset_interruptReady, reset_stopReady]

theorem platformTurn_reset {s : State} {queue : List PlatformAction} (h : s.platformQueue = .reset :: queue) :
    s.platformTurn = State.resetBlock { s with platformQueue := queue } := by
  simp [State.platformTurn, h]

@[simp] theorem State.resetBlock_trace (s : State) : s.resetBlock.trace = [] := rfl
@[simp] theorem State.resetBlock_mem (s : State) : s.resetBlock.mem = s.mem := rfl

/-- Settles O3: the turn is the platform's, and its action resets the block. -/
theorem platformResetRestoresTheBlock : Obligations.PlatformResetRestoresTheBlock := by
  intro s rest queue ht hq
  have hstep : step s = .next (State.resetBlock { s with turns := rest, platformQueue := queue }) := by
    rw [step_listed_turn ht]
    exact congrArg Host.Outcome.next (platformTurn_reset hq)
  exact ⟨_, hstep, rfl, fun a => by rw [State.resetBlock_mem]⟩

/-! ### What each turn does to the emission trace (R31, R133) -/

/-- A host command emits nothing. -/
theorem exec_command_trace {w : Word} {i : Instr} {s t : State} (hi : decode (.cmd w) = .ok i)
    (h : exec i s = .next t) : t.trace = s.trace := by
  obtain ⟨-, rfl⟩ | ⟨-, rfl⟩ | ⟨-, rfl⟩ := decode_cmd_ok hi
  · obtain ⟨-, rfl⟩ := execConfigure_next h
    simp
  · obtain ⟨-, rfl⟩ := execPlay_next h
    simp
  · rw [exec_pause] at h
    cases h
    simp

theorem acceptAccess_trace {s t : State} {a : HostAccess} (h : s.acceptAccess a = .next t) : t.trace = s.trace := by
  obtain ⟨v, -, rfl⟩ | ⟨v, -, rfl⟩ | ⟨w, i, -, hi, hexec⟩ := acceptAccess_next h
  · rfl
  · rfl
  · exact exec_command_trace hi hexec

theorem hostTurn_trace {s t : State} (h : s.hostTurn = .next t) : t.trace = s.trace := by
  obtain rfl | ⟨-, a, rest, -, haccess⟩ := hostTurn_next h
  · rfl
  · exact (acceptAccess_trace haccess).trans rfl

@[simp] theorem State.tickTurn_trace (s : State) : s.tickTurn.trace = s.trace := by
  unfold State.tickTurn
  split <;> rfl

@[simp] theorem State.clockTurn_trace (s : State) : s.clockTurn.trace = s.trace := by
  obtain ⟨-, h⟩ | ⟨-, -, h⟩ | ⟨-, -, h⟩ := clockTurn_cases s
  · rw [h]
  · rw [h, State.raiseOverflow_trace]
  · rw [h]

@[simp] theorem State.syncTurn_trace (s : State) : s.syncTurn.trace = s.trace := by
  unfold State.syncTurn
  split <;> rfl

/-- The platform's turn leaves the trace alone, unless it resets the block (R160). -/
theorem platformTurn_trace (s : State) : s.platformTurn.trace = s.trace ∨ s.platformTurn.trace = [] := by
  obtain ⟨-, h⟩ | ⟨addr, v, rest, -, h⟩ | ⟨addr, rest, -, h⟩ | ⟨rest, -, h⟩ := platformTurn_cases s
  · exact .inl (by rw [h])
  · exact .inl (by rw [h])
  · exact .inl (by rw [h])
  · exact .inr (by rw [h, State.resetBlock_trace])

/-- A step that is not the engine's keeps the trace, or the platform resets the block and the trace is empty. -/
theorem step_trace_of_not_engine {s t : State} (h : step s = .next t) (hne : s.nextTurn ≠ .engine) :
    t.trace = s.trace ∨ s.nextTurn = .platform ∧ t.trace = [] := by
  obtain ⟨-, ht⟩ | ⟨-, rfl⟩ | ⟨-, rfl⟩ | ⟨he, -⟩ | ⟨-, rfl⟩ | ⟨hp, rfl⟩ := step_next h
  · exact .inl ((hostTurn_trace ht).trans (State.takeTurn_trace s))
  · exact .inl (by simp)
  · exact .inl (by simp)
  · exact absurd he hne
  · exact .inl (by simp)
  · obtain hkept | hempty := platformTurn_trace s.takeTurn
    · exact .inl (hkept.trans (State.takeTurn_trace s))
    · exact .inr ⟨hp, hempty⟩

/-- Settles O2: in the reset state every enabling condition but the host's is false, and outside the engine's turn
an empty trace is kept or emptied again. -/
theorem resetIsQuiescent : Obligations.ResetIsQuiescent := by
  refine ⟨tickTurn_disarmed State.reset_timerEnable, reset_interruptReady, engineTurn_passes reset_engineReady,
    syncTurn_notBusy State.reset_syncBusy, (hostReady_iff _).2 ⟨State.reset_hostBusy, State.reset_engineState⟩,
    State.reset_sampleIndex, State.reset_phaseCounter, State.reset_trace, ?trace_stays_empty⟩
  intro s t hstep hne hempty
  obtain hkept | ⟨-, hreset⟩ := step_trace_of_not_engine hstep hne
  · rw [hkept, hempty]
  · exact hreset

end Sys2Proof.Machine
end

