-- ==== Sys2Proof/Proofs/EngineStep.lean ====
section
/-! An engine step (43_sample_advance_engine.md R110 to R120): its outcome is decided by the load, and from the loaded
state it is one of four, a point of the interpolation, the end of a window, part A of the stop or the fall-through. -/

namespace Sys2Proof.Machine

/-! ### Step 3 as a function of the state (R113, R119) -/

/-- What step 3 leaves: the micro-operation the decision table picks has run, or nothing has. -/
def State.phaseRun (s : State) : State :=
  match selectMicroOp s.factor.toNat s.phaseCounter.toNat with
  | some op => s.runMicroOp op
  | none => s

theorem phaseRun_selected {s : State} {op : MicroOp}
    (h : selectMicroOp s.factor.toNat s.phaseCounter.toNat = some op) : s.phaseRun = s.runMicroOp op := by
  rw [State.phaseRun, h]

theorem phaseRun_unselected {s : State} (h : selectMicroOp s.factor.toNat s.phaseCounter.toNat = none) :
    s.phaseRun = s := by
  rw [State.phaseRun, h]

theorem runPhase_eq (s : State) : s.runPhase = .next s.phaseRun := by
  obtain ⟨op, hop, h⟩ | ⟨hnone, h⟩ := runPhase_next s
  · rw [h, phaseRun_selected hop]
  · rw [h, phaseRun_unselected hnone]

/-- The first test of the table is `EMIT_FULL`'s, and no other test picks it (R113). -/
theorem selectMicroOp_full_iff (f p : Nat) : selectMicroOp f p = some .full ↔ f ≤ p := by
  unfold selectMicroOp
  split_ifs <;> simp_all

/-- On a legal factor and a phase from 1 on some test matches (R119). -/
theorem selectMicroOp_isSome {f : Phase} (hf : legalFactor f) {p : Nat} (hp : 1 ≤ p) :
    selectMicroOp f.toNat p ≠ none := by
  have hvalue : f.toNat = 1 ∨ f.toNat = 2 ∨ f.toNat = 4 := by
    rcases hf with rfl | rfl | rfl <;> simp
  unfold selectMicroOp
  split_ifs
  case neg => omega
  all_goals exact Option.some_ne_none _

/-! ### The load decides the outcome -/

/-- A load writes the cached samples and the record of reads only (R111). -/
theorem loadWindow_frame {s loaded : State} (h : s.loadWindow = .ok loaded) :
    loaded = { s with
      currentValue := loaded.currentValue, previousValue := loaded.previousValue, reads := loaded.reads } := by
  obtain ⟨-, rfl⟩ | ⟨-, c, p, -, -, rfl⟩ := loadWindow_ok h <;> rfl

theorem engineStep_loaded {s loaded : State} (h : s.loadWindow = .ok loaded) :
    s.engineStep = .next loaded.nextPhase.phaseRun.finishStep :=
  engineStep_eq h (runPhase_eq _)

theorem engineStep_loadFault {s : State} {f : Fault} (h : s.loadWindow = .error f) : s.engineStep = .fault f := by
  simp [State.engineStep, h]

/-! ### The four outcomes -/

/-- What an engine step can leave of a state whose samples are loaded. -/
inductive State.StepOutcome (s : State) : State → Prop
  /-- in mid-window: a point is emitted, the phase is incremented (R112, R116 to R118) -/
  | point {op : MicroOp} (hop : selectMicroOp s.factor.toNat (s.phaseCounter + 1).toNat = some op)
      (hfull : op ≠ .full) :
      StepOutcome s (s.emit (emission s.currentValue s.previousValue op)).nextPhase.clearOverflow
  /-- the end of a window that is not the last (R114) -/
  | window (hlast : s.factor.toNat ≤ (s.phaseCounter + 1).toNat)
      (hmore : (s.sampleIndex + 1).toNat < s.bufferLength.toNat) :
      StepOutcome s (s.emit s.currentValue).nextWindow.clearOverflow
  /-- part A of the end-of-buffer stop (R115) -/
  | stop (hlast : s.factor.toNat ≤ (s.phaseCounter + 1).toNat)
      (hend : s.bufferLength.toNat ≤ (s.sampleIndex + 1).toNat) :
      StepOutcome s (s.emit s.currentValue).nextWindow.beginStop
  /-- no test matches (R119) -/
  | fallThrough (hnone : selectMicroOp s.factor.toNat (s.phaseCounter + 1).toNat = none) :
      StepOutcome s s.nextPhase.clearOverflow

theorem phaseRun_outcome {s : State} (hidle : s.engineState = .idle) :
    s.StepOutcome s.nextPhase.phaseRun.finishStep := by
  cases hsel : selectMicroOp s.factor.toNat (s.phaseCounter + 1).toNat with
  | none =>
    rw [phaseRun_unselected (s := s.nextPhase) hsel, finishStep_idle (s := s.nextPhase) hidle]
    exact .fallThrough hsel
  | some op =>
    rw [phaseRun_selected (s := s.nextPhase) hsel]
    by_cases hop : op = .full
    · subst hop
      have hlast := (selectMicroOp_full_iff _ _).1 hsel
      rw [State.runMicroOp]
      obtain ⟨hend, hfull⟩ | ⟨hmore, hfull⟩ := emitFull_cases s.nextPhase
      · rw [hfull, finishStep_waiting rfl]
        exact .stop hlast hend
      · rw [hfull, finishStep_idle (s := (s.nextPhase.emit s.nextPhase.currentValue).nextWindow) hidle]
        exact .window hlast hmore
    · rw [runMicroOp_interior hop, finishStep_idle (s := s.nextPhase.emit _) hidle]
      exact .point hsel hop

/-- Everything an engine step can do: load, and then one of the four outcomes. -/
theorem engineStep_outcome {s t : State} (hidle : s.engineState = .idle) (h : s.engineStep = .next t) :
    ∃ loaded, s.loadWindow = .ok loaded ∧ loaded.StepOutcome t := by
  obtain ⟨loaded, ran, hload, hrun, rfl⟩ := engineStep_next h
  rw [runPhase_eq] at hrun
  cases hrun
  have hkeep : loaded.engineState = s.engineState :=
    (congrArg State.engineState (loadWindow_frame hload)).trans rfl
  exact ⟨loaded, hload, phaseRun_outcome (hkeep.trans hidle)⟩

/-! ### Which outcome -/

/-- The phase after a stored one of at most 3 (R15, R112). -/
theorem phase_succ_of_le_three {p : Phase} (h : p.toNat ≤ 3) : (p + 1).toNat = p.toNat + 1 := by
  bv_omega

/-- A point is emitted before the last phase of the window only. -/
theorem phase_lt_of_point {f p : Nat} {op : MicroOp} (hop : selectMicroOp f p = some op) (hfull : op ≠ .full) :
    p < f := by
  by_contra hge
  rw [(selectMicroOp_full_iff f p).2 (Nat.le_of_not_lt hge)] at hop
  cases hop
  exact hfull rfl

/-- At the last phase of a window the step is `EMIT_FULL` with the flag clear of step 4 (R114, R120). -/
theorem engineStep_last {s loaded : State} (h : s.loadWindow = .ok loaded)
    (hlast : loaded.factor.toNat ≤ (loaded.phaseCounter + 1).toNat) :
    s.engineStep = .next loaded.nextPhase.emitFull.finishStep := by
  rw [engineStep_loaded h, phaseRun_selected (s := loaded.nextPhase) ((selectMicroOp_full_iff _ _).2 hlast),
    State.runMicroOp]

end Sys2Proof.Machine
end

