-- ==== Sys2Proof/Proofs/HostOutcome.lean ====
section
/-! Everything the host's turn can leave (20_memory.md R52, R53; 30_encoding.md R61 to R64): it passes, an operand is
written, or one of the three commands has run. -/

namespace Sys2Proof.Machine

/-- Only a whole-word write at offset 8 reaches `CMD` (R52). -/
theorem eq_write_of_target_cmd {a : HostAccess} {w : Word} (h : a.target = some (.cmd, w)) :
    a = .write 8#32 .word w := by
  cases a with
  | read offset width => cases h
  | write offset width value =>
    cases width with
    | byte => cases h
    | half => cases h
    | word =>
      simp only [HostAccess.target] at h
      split_ifs at h with h0 h4 h8
      · cases h
      · cases h
      · cases h
        rw [h8]

/-- The host's next access is taken, and the others stay queued. -/
def State.takeAccess (s : State) (queue : List HostAccess) : State := { s with hostQueue := queue }

/-- What a turn of the host that answers can leave (R32, R52, R61). -/
inductive State.HostOutcome (s : State) : State → Prop
  /-- the host stalls or has no access left -/
  | passes : HostOutcome s s
  | arg0 (v : Word) (queue : List HostAccess) : HostOutcome s { s.takeAccess queue with arg0 := v }
  | arg1 (v : Word) (queue : List HostAccess) : HostOutcome s { s.takeAccess queue with arg1 := v }
  | configure (queue : List HostAccess) (hrate : s.legalRate) :
      HostOutcome s ((s.takeAccess queue).programClock (coerceFactor s.arg1) s.requestedTop).startHostWait.drawCount
  | play (queue : List HostAccess) (hcmd : s.hostQueue = .write 8#32 .word 2#32 :: queue)
      (hidle : s.engineState = .idle) (hirq : s.irqEnable = true) :
      HostOutcome s (s.takeAccess queue).installAndArm.startHostWait.drawCount
  | pause (queue : List HostAccess) : HostOutcome s (s.takeAccess queue).disarm.startHostWait

theorem hostTurn_outcome {s t : State} (h : s.hostTurn = .next t) : s.HostOutcome t := by
  obtain rfl | ⟨hready, a, queue, hqueue, ha⟩ := hostTurn_next h
  · exact .passes
  obtain ⟨-, hidle⟩ := (hostReady_iff s).1 hready
  obtain ⟨v, -, rfl⟩ | ⟨v, -, rfl⟩ | ⟨w, i, htarget, hi, hexec⟩ := acceptAccess_next ha
  · exact .arg0 v queue
  · exact .arg1 v queue
  obtain ⟨rfl, rfl⟩ | ⟨rfl, rfl⟩ | ⟨rfl, rfl⟩ := decode_cmd_ok hi
  case inl =>
    obtain ⟨hrate, rfl⟩ := execConfigure_next hexec
    exact .configure queue hrate
  case inr.inl =>
    obtain ⟨hirq, rfl⟩ := execPlay_next hexec
    exact .play queue (hqueue.trans (congrArg (· :: queue) (eq_write_of_target_cmd htarget))) hidle hirq
  case inr.inr =>
    rw [exec_pause] at hexec
    cases hexec
    exact .pause queue

end Sys2Proof.Machine
end

