-- ==== Sys2Proof/Proofs/Invariant.lean ====
section
/-! The invariant of the machine: it holds at reset and every step of every agent keeps it. One lemma per update of
the state says which clauses the update touches; the agents' turns are put together from them. -/

namespace Sys2Proof.Machine

/-! ### Reset (R34, R160) -/

/-- A block after reset meets every clause, whatever was before, as long as the platform's memory is canonical. -/
theorem inv_resetBlock {s : State} (h : s.mem.wf = true) : Inv s.resetBlock where
  memory_canonical := h
  clock_on_iff_configured := rfl
  configured := nofun
  armed_only_configured := nofun
  pending_only_configured := nofun
  phase_range := Nat.zero_le 3
  index_from_one := Nat.le_refl 1
  index_room := fun _ => (by decide : 1 + 1 < 2 ^ 32)
  window_has_emitted := fun h => absurd rfl h
  samples_rescaled := fun h => absurd rfl h
  dac_holds_last := fun h => absurd rfl h
  trace_range := nofun
  stopping := nofun
  host_waits_for_sync := nofun
  sync_has_waiter := nofun

/-- Settles O46: the reset state is what the platform's reset makes of itself. -/
theorem resetMeetsTheInvariant : Obligations.ResetMeetsTheInvariant :=
  inv_resetBlock (s := State.reset) reset_memory_wf

/-! ### The turn and the synchroniser -/

theorem Inv.takeTurn {s : State} (h : Inv s) : Inv s.takeTurn := by
  unfold State.takeTurn
  split <;> exact { h with }

theorem Inv.endSync {s : State} (h : Inv s) : Inv s.endSync :=
  { h with host_waits_for_sync := nofun, sync_has_waiter := nofun }

theorem Inv.syncTurn {s : State} (h : Inv s) : Inv s.syncTurn := by
  unfold State.syncTurn
  split
  · exact h.endSync
  · exact h

/-! ### The timer (R100, R101) -/

/-- An armed timer belongs to a configured block that is not stopping, so that it may tick. -/
theorem Inv.raiseOverflow {s : State} (h : Inv s) (harmed : s.timerEnable = true) : Inv s.raiseOverflow :=
  { h with
    pending_only_configured := fun _ => h.armed_only_configured harmed
    stopping := fun hw => absurd (harmed.symm.trans (h.stopping hw).1) (by decide) }

theorem Inv.withCount {s : State} (h : Inv s) (c : TimerWord) : Inv { s with count := c } := { h with }

theorem Inv.drawCount {s : State} (h : Inv s) : Inv s.drawCount := { h with }

theorem Inv.tickTurn {s : State} (h : Inv s) : Inv s.tickTurn := by
  unfold State.tickTurn
  split
  case isTrue harmed => exact h.raiseOverflow harmed
  case isFalse => exact h

theorem timerCounts_iff (s : State) :
    s.timerCounts = true ↔ s.timerEnable = true ∧ s.clkGen.enable = true ∧ s.timerMode = .mfrq := by
  simp [State.timerCounts, and_assoc]

theorem Inv.clockTurn {s : State} (h : Inv s) : Inv s.clockTurn := by
  obtain ⟨-, heq⟩ | ⟨hcounts, -, heq⟩ | ⟨-, -, heq⟩ := clockTurn_cases s
  · rw [heq]
    exact h
  · rw [heq]
    exact (h.withCount 0).raiseOverflow ((timerCounts_iff s).1 hcounts).1
  · rw [heq]
    exact h.withCount _

/-! ### The platform (R47, R50, R160) -/

theorem Inv.withMemory {s : State} (h : Inv s) {m : Memory} (hm : m.wf = true) (queue : List PlatformAction) :
    Inv { s with platformQueue := queue, mem := m } :=
  { h with memory_canonical := hm }

theorem Inv.platformTurn {s : State} (h : Inv s) : Inv s.platformTurn := by
  obtain ⟨-, heq⟩ | ⟨addr, v, queue, -, heq⟩ | ⟨addr, queue, -, heq⟩ | ⟨queue, -, heq⟩ := platformTurn_cases s
  · rw [heq]
    exact h
  · rw [heq]
    exact h.withMemory (Memory.wf_write s.mem addr v h.memory_canonical) queue
  · rw [heq]
    exact h.withMemory (Memory.wf_release s.mem addr.toNat h.memory_canonical) queue
  · rw [heq]
    exact inv_resetBlock (s := { s with platformQueue := queue }) h.memory_canonical

/-! ### The host's commands (R80 to R97) -/

theorem Inv.startHostWait {s : State} (h : Inv s) : Inv s.startHostWait :=
  { h with host_waits_for_sync := fun _ => rfl, sync_has_waiter := fun _ => .inl rfl }

/-- A legal rate leaves a legal factor and a top value that the timer's register holds whole (R81, R88). -/
theorem Inv.programClock {s : State} (h : Inv s) (hrate : s.legalRate) :
    Inv (s.programClock (coerceFactor s.arg1) s.requestedTop) := by
  obtain ⟨-, hone, hfits⟩ := hrate
  have htop := programClock_top_toNat hfits s (coerceFactor s.arg1)
  exact { h with
    clock_on_iff_configured := rfl
    configured := fun _ => ⟨coerceFactor_legal s.arg1, htop.symm ▸ hone, rfl, rfl, rfl, rfl⟩
    armed_only_configured := fun _ => rfl
    pending_only_configured := fun _ => rfl }

/-- `PLAY` may install any buffer while the engine is idle: the clause on the length is about the stop (R90, R115). -/
theorem Inv.installAndArm {s : State} (h : Inv s) (hidle : s.engineState = .idle) (hirq : s.irqEnable = true) :
    Inv s.installAndArm :=
  { h with
    armed_only_configured := fun _ => hirq
    stopping := fun hw => absurd (hidle.symm.trans hw) (by decide) }

theorem Inv.disarmed {s : State} (h : Inv s) : Inv { s with timerEnable := false } :=
  { h with
    armed_only_configured := nofun
    stopping := fun hw => ⟨rfl, (h.stopping hw).2⟩ }

/-- The host's wait covers the synchronisation that the disable of `PAUSE` starts (R93). -/
theorem Inv.pause {s : State} (h : Inv s) : Inv s.disarm.startHostWait :=
  h.disarmed.startHostWait.drawCount

theorem Inv.takeAccess {s : State} (h : Inv s) (queue : List HostAccess) : Inv (s.takeAccess queue) := { h with }

theorem Inv.hostTurn {s t : State} (h : Inv s) (ht : s.hostTurn = .next t) : Inv t := by
  cases hostTurn_outcome ht with
  | passes => exact h
  | arg0 v queue | arg1 v queue => exact { h with }
  | configure queue hrate => exact ((h.takeAccess queue).programClock hrate).startHostWait.drawCount
  | play queue _ hidle hirq => exact ((h.takeAccess queue).installAndArm hidle hirq).startHostWait.drawCount
  | pause queue => exact (h.takeAccess queue).pause

/-! ### The engine (R110 to R120) -/

/-- The load keeps the invariant and leaves both samples multiples of 4, whether it latched them or a load before it
did (R16, R111). -/
theorem Inv.loaded {s loaded : State} (h : Inv s) (hload : s.loadWindow = .ok loaded) :
    Inv loaded ∧ loaded.currentValue.toNat % 4 = 0 ∧ loaded.previousValue.toNat % 4 = 0 := by
  obtain ⟨hmid, rfl⟩ | ⟨-, c, p, -, -, rfl⟩ := loadWindow_ok hload
  · exact ⟨h, h.samples_rescaled (h.window_has_emitted hmid)⟩
  · have hrescaled : (rescale c).toNat % 4 = 0 ∧ (rescale p).toNat % 4 = 0 := by
      rw [rescale_toNat, rescale_toNat]
      omega
    exact ⟨{ h with samples_rescaled := fun _ => hrescaled }, hrescaled⟩

/-- A value emitted between two rescaled samples is at most 1020 (R123). -/
theorem emission_le {c p : DacValue} (hc : c.toNat % 4 = 0) (hp : p.toNat % 4 = 0) (op : MicroOp) :
    (emission c p op).toNat ≤ 1020 :=
  (emission_between c p op).2.trans (Nat.max_le.2 ⟨rescaled_le hc, rescaled_le hp⟩)

theorem Inv.emit {s : State} (h : Inv s)
    (hsamples : s.currentValue.toNat % 4 = 0 ∧ s.previousValue.toNat % 4 = 0) (op : MicroOp) :
    Inv (s.emit (emission s.currentValue s.previousValue op)) :=
  { h with
    window_has_emitted := fun _ => by simp
    samples_rescaled := fun _ => hsamples
    dac_holds_last := fun _ => by simp
    trace_range := fun v hv => by
      rw [State.emit_trace, List.mem_append, List.mem_singleton] at hv
      obtain hold | rfl := hv
      · exact h.trace_range v hold
      · exact emission_le hsamples.1 hsamples.2 op }

theorem Inv.clearOverflow {s : State} (h : Inv s) (hidle : s.engineState = .idle) : Inv s.clearOverflow :=
  { h with
    pending_only_configured := nofun
    stopping := fun hw => absurd (hidle.symm.trans hw) (by decide) }

theorem Inv.nextPhase {s : State} (h : Inv s) (hidle : s.engineState = .idle) (hemitted : s.trace ≠ [])
    (hphase : (s.phaseCounter + 1).toNat ≤ 3) : Inv s.nextPhase :=
  { h with
    phase_range := hphase
    window_has_emitted := fun _ => hemitted
    stopping := fun hw => absurd (hidle.symm.trans hw) (by decide) }

/-- An idle engine's index has room for the increment (R14). -/
theorem Inv.index_succ {s : State} (h : Inv s) (hidle : s.engineState = .idle) :
    (s.sampleIndex + 1).toNat = s.sampleIndex.toNat + 1 := by
  have := h.index_room hidle
  bv_omega

/-- An index below the buffer length has room again for its next increment (R14). -/
theorem Inv.nextWindow {s : State} (h : Inv s) (hidle : s.engineState = .idle)
    (hmore : (s.sampleIndex + 1).toNat < s.bufferLength.toNat) : Inv s.nextWindow :=
  { h with
    phase_range := Nat.zero_le 3
    index_from_one := (h.index_succ hidle).symm ▸ Nat.le_add_left 1 _
    index_room := fun _ => Nat.lt_of_le_of_lt hmore s.bufferLength.isLt
    window_has_emitted := fun hmid => absurd rfl hmid
    stopping := fun hw => absurd (hidle.symm.trans hw) (by decide) }

/-- Part A of the stop sets up the shape of the wait (R115). -/
theorem Inv.beginStop {s : State} (h : Inv s) (hidle : s.engineState = .idle) (hpending : s.ovfPending = true)
    (hend : s.bufferLength.toNat ≤ (s.sampleIndex + 1).toNat) : Inv s.nextWindow.beginStop :=
  { h with
    armed_only_configured := nofun
    phase_range := Nat.zero_le 3
    index_from_one := (h.index_succ hidle).symm ▸ Nat.le_add_left 1 _
    index_room := nofun
    window_has_emitted := fun hmid => absurd rfl hmid
    stopping := fun _ => ⟨rfl, hpending, rfl, hend⟩
    host_waits_for_sync := fun _ => rfl
    sync_has_waiter := fun _ => .inr rfl }

/-- Part B of the stop (R115): the index is 1 again, and nobody waits any longer. -/
theorem Inv.endStop {s : State} (h : Inv s) (hnosync : s.syncBusy = false) : Inv s.endStop :=
  { h with
    pending_only_configured := nofun
    index_from_one := Nat.le_refl 1
    index_room := fun _ => (by decide : 1 + 1 < 2 ^ 32)
    stopping := nofun
    sync_has_waiter := fun hsync => absurd (hnosync.symm.trans hsync) (by decide) }

theorem legalFactor_le_four {f : Phase} (h : legalFactor f) : f.toNat ≤ 4 := by
  rcases h with rfl | rfl | rfl <;> decide

/-- With a legal factor an engine step never falls through (R119), and each of its other outcomes keeps the
invariant. -/
theorem Inv.stepOutcome {s t : State} (h : Inv s)
    (hsamples : s.currentValue.toNat % 4 = 0 ∧ s.previousValue.toNat % 4 = 0)
    (hready : s.interruptReady = true) (ht : s.StepOutcome t) : Inv t := by
  obtain ⟨hpending, hirq, hidle⟩ := (interruptReady_iff s).1 hready
  obtain ⟨hfactor, -⟩ := h.configured hirq
  have hfull := h.emit hsamples .full
  cases ht with
  | @point op hop hinterior =>
    have hlt := phase_lt_of_point hop hinterior
    have hle := legalFactor_le_four hfactor
    have hemit := h.emit hsamples op
    exact (hemit.nextPhase hidle (by simp) (Nat.le_of_lt_succ (hlt.trans_le hle))).clearOverflow hidle
  | window _ hmore => exact (hfull.nextWindow hidle hmore).clearOverflow hidle
  | stop _ hend => exact hfull.beginStop hidle hpending hend
  | fallThrough hnone =>
    rw [phase_succ_of_le_three h.phase_range] at hnone
    exact absurd hnone (selectMicroOp_isSome hfactor (Nat.le_add_left 1 _))

/-- The load does not decide whether the interrupt is ready (R110, R111). -/
theorem interruptReady_loaded {s loaded : State} (hload : s.loadWindow = .ok loaded) :
    loaded.interruptReady = s.interruptReady :=
  (congrArg State.interruptReady (loadWindow_frame hload)).trans rfl

theorem Inv.engineTurn {s t : State} (h : Inv s) (ht : s.engineTurn = .next t) : Inv t := by
  obtain rfl | ⟨hready, hstep⟩ | ⟨-, hnosync, rfl⟩ := engineTurn_next ht
  · exact h
  · obtain ⟨-, -, hidle⟩ := (interruptReady_iff s).1 hready
    obtain ⟨loaded, hload, hout⟩ := engineStep_outcome hidle hstep
    obtain ⟨hinv, hsamples⟩ := h.loaded hload
    exact hinv.stepOutcome hsamples ((interruptReady_loaded hload).trans hready) hout
  · exact h.endStop hnosync

/-! ### Every step -/

/-- Settles O47, agent by agent. -/
theorem stepKeepsTheInvariant : Obligations.StepKeepsTheInvariant := by
  intro s t hinv hstep
  have h := hinv.takeTurn
  obtain ⟨-, ht⟩ | ⟨-, rfl⟩ | ⟨-, rfl⟩ | ⟨-, ht⟩ | ⟨-, rfl⟩ | ⟨-, rfl⟩ := step_next hstep
  · exact h.hostTurn ht
  · exact h.tickTurn
  · exact h.clockTurn
  · exact h.engineTurn ht
  · exact h.syncTurn
  · exact h.platformTurn

/-! ### The wait at the end of the buffer (R155) -/

theorem clockTurn_disarmed {s : State} (h : s.timerEnable = false) : s.clockTurn = s := by
  obtain ⟨-, heq⟩ | ⟨hcounts, -⟩ | ⟨hcounts, -⟩ := clockTurn_cases s
  · exact heq
  · exact absurd (h.symm.trans ((timerCounts_iff s).1 hcounts).1) (by decide)
  · exact absurd (h.symm.trans ((timerCounts_iff s).1 hcounts).1) (by decide)

/-- An engine whose synchronisation is still in progress lets its turn pass (R115). -/
theorem engineTurn_blocked {s : State} (hw : s.engineState = .waitSync) (hb : s.syncBusy = true) :
    s.engineTurn = .next s := by
  simp [State.engineTurn, hw, hb]

/-- A step is the turn of the agent that `nextTurn` names. -/
theorem step_of_nextTurn {s : State} {turn : Turn} (h : s.nextTurn = turn) : step s = s.takeTurn.runTurn turn := by
  rw [step, h]

/-- The stopping engine has disarmed the timer and closed the host's port. -/
theorem step_waiting_passes {s : State} (hinv : Inv s) (hw : s.engineState = .waitSync)
    (hturn : s.nextTurn = .host ∨ s.nextTurn = .tick ∨ s.nextTurn = .clockCycle) : step s = .next s.takeTurn := by
  obtain ⟨hdisarmed, -⟩ := hinv.stopping hw
  rw [← s.takeTurn_timerEnable] at hdisarmed
  rw [← s.takeTurn_engineState] at hw
  obtain hturn | hturn | hturn := hturn <;> rw [step_of_nextTurn hturn]
  · exact hostTurn_stalls ((not_hostReady_iff _).2 (.inr hw))
  · exact congrArg Host.Outcome.next (tickTurn_disarmed hdisarmed)
  · exact congrArg Host.Outcome.next (clockTurn_disarmed hdisarmed)

/-- Settles O42: the host and the timer can do nothing while the engine waits, nor can the engine itself. -/
theorem waitingBlockIsDead : Obligations.WaitingBlockIsDead := by
  intro s hinv hw hb hsync hplatform
  cases hturn : s.nextTurn with
  | host => exact step_waiting_passes hinv hw (.inl hturn)
  | tick => exact step_waiting_passes hinv hw (.inr (.inl hturn))
  | clockCycle => exact step_waiting_passes hinv hw (.inr (.inr hturn))
  | engine =>
    rw [step_of_nextTurn hturn]
    exact engineTurn_blocked (s.takeTurn_engineState.trans hw) (s.takeTurn_syncBusy.trans hb)
  | syncComplete => exact absurd hturn hsync
  | platform => exact absurd hturn hplatform

end Sys2Proof.Machine
end

