-- ==== Sys2Proof/Proofs/Encoding.lean ====
section
/-! The two formats (30_encoding.md R62 to R66): encoding and decoding are inverse to each other, the words that decode
are the ones with legal fields, and each phase row runs what the decision table picks. -/

namespace Sys2Proof.Machine

/-! ### Encoding and decoding are inverse -/

/-- A word is decoded to exactly the operation that is encoded by it, in either format. -/
theorem decode_iff_encode (c : CodeWord) (i : Instr) : decode c = .ok i ↔ encode i = c := by
  cases c with
  | phase key => exact decode_phase_iff_encode
  | cmd w =>
    constructor
    · intro h
      obtain ⟨rfl, rfl⟩ | ⟨rfl, rfl⟩ | ⟨rfl, rfl⟩ := decode_cmd_ok h <;> rfl
    · intro h
      cases i <;> cases h <;> rfl

/-! ### The fields of a word -/

/-- Reserved bits 0 and a non-zero operation leave the words 1, 2 and 3 (R62, R64). -/
theorem wellFormed_cmd_iff (w : Word) : (CodeWord.cmd w).wellFormed = true ↔ w = 1#32 ∨ w = 2#32 ∨ w = 3#32 := by
  have hreserved : w.extractLsb' 2 30 = 0#30 ↔ w.toNat / 4 = 0 := by
    rw [← BitVec.toNat_inj, BitVec.extractLsb'_toNat, Nat.shiftRight_eq_div_pow, BitVec.toNat_ofNat]
    have := w.isLt
    omega
  have hop : w.extractLsb' 0 2 = 0#2 ↔ w.toNat % 4 = 0 := by
    rw [← BitVec.toNat_inj, BitVec.extractLsb'_toNat, BitVec.toNat_ofNat]
    rfl
  simp only [CodeWord.wellFormed, Bool.and_eq_true, beq_iff_eq, bne_iff_ne, ne_eq, hreserved, hop]
  bv_omega

/-- A legal factor and a phase from 1 to 4 (R66). -/
theorem wellFormed_phase_iff (f p : Phase) :
    (CodeWord.phase (f ++ p)).wellFormed = true ↔ legalFactor f ∧ 1 ≤ p.toNat ∧ p.toNat ≤ 4 := by
  simp only [CodeWord.wellFormed, BitVec.extractLsb'_append_eq_left, BitVec.extractLsb'_append_eq_right,
    Bool.and_eq_true, Bool.or_eq_true, beq_iff_eq, BitVec.ule, decide_eq_true_eq, legalFactor, or_assoc, and_assoc]
  rfl

/-- A key is its factor and its phase (R66). -/
theorem phaseKey_split (key : PhaseKey) : key.extractLsb' 3 3 ++ key.extractLsb' 0 3 = key := by
  revert key
  decide

theorem wellFormed_iff_decodes (c : CodeWord) : c.wellFormed = true ↔ ∃ i, decode c = .ok i := by
  cases c with
  | cmd w =>
    rw [wellFormed_cmd_iff]
    constructor
    · rintro (rfl | rfl | rfl)
      · exact ⟨_, decode_cmd_configure⟩
      · exact ⟨_, decode_cmd_play⟩
      · exact ⟨_, decode_cmd_pause⟩
    · rintro ⟨i, hi⟩
      obtain ⟨hw, -⟩ | ⟨hw, -⟩ | ⟨hw, -⟩ := decode_cmd_ok hi
      · exact .inl hw
      · exact .inr (.inl hw)
      · exact .inr (.inr hw)
  | phase key =>
    rw [← phaseKey_split key, wellFormed_phase_iff]
    constructor
    · rintro ⟨hf, h1, h4⟩
      obtain ⟨i, -, hi, -⟩ := decode_legal_key _ _ hf h1 h4
      exact ⟨i, hi⟩
    · rintro ⟨i, hi⟩
      obtain ⟨hf, h1, h4, -⟩ := decode_key_selects _ _ i hi
      exact ⟨hf, h1, h4⟩

/-- Settles O5, format by format. -/
theorem decodeAndEncodeAgree : Obligations.DecodeAndEncodeAgree :=
  ⟨fun i _ => (decode_iff_encode (encode i) i).2 rfl, fun c i => (decode_iff_encode c i).1, wellFormed_iff_decodes⟩

/-! ### The rows of the phase decode (R66, R113) -/

/-- Where a test matches, the micro-operation it picks is the branch of R113's tests written out. -/
theorem runMicroOp_of_select {f p : Nat} {op : MicroOp} (h : selectMicroOp f p = some op) (s : State) :
    s.runMicroOp op =
      if f ≤ p then s.emitFull
      else if p * 2 = f then s.emitHalf
      else if p * 4 = f then s.emitQuarter
      else s.emitThreeQuarter := by
  unfold selectMicroOp at h
  split_ifs at h ⊢
  all_goals cases h; rfl

/-- Settles O6: a legal key has a row, and the row's micro-operation is the one the tests pick. -/
theorem phaseRowsFollowTheDecisionTable : Obligations.PhaseRowsFollowTheDecisionTable := by
  intro f p hf h1 h4
  obtain ⟨i, op, hi, hop⟩ := decode_legal_key f p hf h1 h4
  obtain ⟨-, -, -, hsel⟩ := decode_key_selects f p i hi
  exact ⟨i, hi, fun s => (exec_phase_row hop s).trans (congrArg _ (runMicroOp_of_select (hsel.symm.trans hop) s))⟩

open Laws.TableRow in
/-- Settles O7: the eight words are table words of their rows. -/
theorem tableWordsDecodeToTheirRows : Obligations.TableWordsDecodeToTheirRows :=
  ⟨configure.1, play.1, pause.1, emitFullF2P3.1, emitHalfF2P1.1, emitQuarterF4P1.1, emit3QuarterF4P3.1,
    emitFullF4P4.1⟩

end Sys2Proof.Machine
end

