-- ==== Sys2Proof/Proofs/Writers.lean ====
section
/-! Who writes what (10_state.md R33): for each agent the fields its turn can change, as one record equation, and the
rules of the whole machine that follow. -/

namespace Sys2Proof.Machine

/-! ### The frame of each agent's turn -/

/-- The engine's turn leaves the buffer, the configuration, the operands, the host's wait, memory and the queues as
they are (R128). -/
theorem engineTurn_frame {s t : State} (h : s.engineTurn = .next t) :
    t = { s with
      currentValue := t.currentValue, previousValue := t.previousValue, phaseCounter := t.phaseCounter
      sampleIndex := t.sampleIndex, timerEnable := t.timerEnable, syncBusy := t.syncBusy
      engineState := t.engineState, ovfPending := t.ovfPending, dacData := t.dacData, trace := t.trace
      reads := t.reads, count := t.count, countDraws := t.countDraws } := by
  obtain rfl | ⟨hready, hstep⟩ | ⟨-, -, rfl⟩ := engineTurn_next h
  case inl => rfl
  case inr.inr => rfl
  case inr.inl =>
    obtain ⟨-, -, hidle⟩ := (interruptReady_iff s).1 hready
    obtain ⟨loaded, hload, hout⟩ := engineStep_outcome hidle hstep
    obtain ⟨-, rfl⟩ | ⟨-, c, p, -, -, rfl⟩ := loadWindow_ok hload <;> cases hout <;> rfl

/-- The host's turn leaves the position, the samples, the output, the engine's state, the pending flag and memory as
they are (R33). -/
theorem hostTurn_frame {s t : State} (h : s.hostTurn = .next t) :
    t = { s with
      bufferRef := t.bufferRef, bufferLength := t.bufferLength, factor := t.factor, top := t.top
      timerMode := t.timerMode, prescaler := t.prescaler, clkGen := t.clkGen, dacResolution := t.dacResolution
      irqPriority := t.irqPriority, irqEnable := t.irqEnable, timerEnable := t.timerEnable, count := t.count
      syncBusy := t.syncBusy, arg0 := t.arg0, arg1 := t.arg1, hostBusy := t.hostBusy, hostQueue := t.hostQueue
      countDraws := t.countDraws } := by
  cases hostTurn_outcome h <;> rfl

theorem tickTurn_frame (s : State) : s.tickTurn = { s with ovfPending := s.tickTurn.ovfPending } := by
  unfold State.tickTurn
  split <;> rfl

theorem clockTurn_frame (s : State) :
    s.clockTurn = { s with count := s.clockTurn.count, ovfPending := s.clockTurn.ovfPending } := by
  obtain ⟨-, h⟩ | ⟨-, -, h⟩ | ⟨-, -, h⟩ := clockTurn_cases s
  · rw [h]
  · rw [h]
    rfl
  · rw [h]

theorem syncTurn_frame (s : State) :
    s.syncTurn = { s with syncBusy := s.syncTurn.syncBusy, hostBusy := s.syncTurn.hostBusy } := by
  unfold State.syncTurn
  split <;> rfl

/-! ### Groups of registers -/

/-- The position, the cached samples and the output (R14 to R16, R30, R31, R10). -/
def State.position (s : State) : Word × Phase × DacValue × DacValue × DacValue × List DacValue × List Word :=
  (s.sampleIndex, s.phaseCounter, s.currentValue, s.previousValue, s.dacData, s.trace, s.reads)

/-- The configuration and the operands (R18 to R23, R28). -/
def State.configuration (s : State) :
    Phase × TimerWord × TimerMode × Prescaler × ClkGen × DacResolution × IrqPriority × Bool × Word × Word :=
  (s.factor, s.top, s.timerMode, s.prescaler, s.clkGen, s.dacResolution, s.irqPriority, s.irqEnable, s.arg0, s.arg1)

/-- The buffer registers (R12, R13). -/
def State.buffer (s : State) : Word × Word := (s.bufferRef, s.bufferLength)

@[simp] theorem State.takeTurn_position (s : State) : s.takeTurn.position = s.position := by
  simp [State.position]

@[simp] theorem State.takeTurn_configuration (s : State) : s.takeTurn.configuration = s.configuration := by
  simp [State.configuration]

@[simp] theorem State.takeTurn_buffer (s : State) : s.takeTurn.buffer = s.buffer := by
  simp [State.buffer]

/-! ### Rules of the whole machine -/

/-- Settles O50: the registers it names are the ones outside the engine's frame. -/
theorem engineWritesOnlyItsRegisters : Obligations.EngineWritesOnlyItsRegisters :=
  fun _ _ => engineTurn_frame

theorem step_keeps_memory {s t : State} (h : step s = .next t) (hplatform : s.nextTurn ≠ .platform) :
    t.mem = s.mem := by
  obtain ⟨-, ht⟩ | ⟨-, rfl⟩ | ⟨-, rfl⟩ | ⟨-, ht⟩ | ⟨-, rfl⟩ | ⟨hp, -⟩ := step_next h
  · exact (congrArg State.mem (hostTurn_frame ht)).trans s.takeTurn_mem
  · exact (congrArg State.mem (tickTurn_frame _)).trans s.takeTurn_mem
  · exact (congrArg State.mem (clockTurn_frame _)).trans s.takeTurn_mem
  · exact (congrArg State.mem (engineTurn_frame ht)).trans s.takeTurn_mem
  · exact (congrArg State.mem (syncTurn_frame _)).trans s.takeTurn_mem
  · exact absurd hp hplatform

/-- Settles O48: memory is in the frame of every agent but the platform. -/
theorem onlyThePlatformWritesMemory : Obligations.OnlyThePlatformWritesMemory := by
  intro s t h hplatform
  have hmem := step_keeps_memory h hplatform
  exact ⟨hmem, fun a => by rw [hmem]⟩

theorem step_keeps_position {s t : State} (h : step s = .next t) (hengine : s.nextTurn ≠ .engine)
    (hplatform : s.nextTurn ≠ .platform) : t.position = s.position := by
  obtain ⟨-, ht⟩ | ⟨-, rfl⟩ | ⟨-, rfl⟩ | ⟨he, -⟩ | ⟨-, rfl⟩ | ⟨hp, -⟩ := step_next h
  · exact (congrArg State.position (hostTurn_frame ht)).trans s.takeTurn_position
  · exact (congrArg State.position (tickTurn_frame _)).trans s.takeTurn_position
  · exact (congrArg State.position (clockTurn_frame _)).trans s.takeTurn_position
  · exact absurd he hengine
  · exact (congrArg State.position (syncTurn_frame _)).trans s.takeTurn_position
  · exact absurd hp hplatform

/-- Settles O49: the position is in the frame of every agent but the engine and the platform. -/
theorem onlyTheEngineMovesThePosition : Obligations.OnlyTheEngineMovesThePosition := by
  intro s t h hengine hplatform
  simpa only [State.position, Prod.mk.injEq] using step_keeps_position h hengine hplatform

theorem step_keeps_configuration {s t : State} (h : step s = .next t) (hhost : s.nextTurn ≠ .host)
    (hplatform : s.nextTurn ≠ .platform) : t.configuration = s.configuration := by
  obtain ⟨hh, -⟩ | ⟨-, rfl⟩ | ⟨-, rfl⟩ | ⟨-, ht⟩ | ⟨-, rfl⟩ | ⟨hp, -⟩ := step_next h
  · exact absurd hh hhost
  · exact (congrArg State.configuration (tickTurn_frame _)).trans s.takeTurn_configuration
  · exact (congrArg State.configuration (clockTurn_frame _)).trans s.takeTurn_configuration
  · exact (congrArg State.configuration (engineTurn_frame ht)).trans s.takeTurn_configuration
  · exact (congrArg State.configuration (syncTurn_frame _)).trans s.takeTurn_configuration
  · exact absurd hp hplatform

/-- Settles O51: the configuration is in the frame of every agent but the host and the platform. -/
theorem onlyTheHostWritesTheConfiguration : Obligations.OnlyTheHostWritesTheConfiguration := by
  intro s t h hhost hplatform
  simpa only [State.configuration, Prod.mk.injEq] using step_keeps_configuration h hhost hplatform

/-! ### The buffer registers (R12, R13, R55) -/

theorem hostTurn_buffer {s t : State} (h : s.hostTurn = .next t) :
    t.buffer = s.buffer ∨ s.hostQueue.head? = some (.write 8#32 .word 2#32) ∧ t.buffer = (s.arg0, s.arg1) ∧
      t.timerEnable = true := by
  cases hostTurn_outcome h with
  | play queue hcmd => exact .inr ⟨by rw [hcmd, List.head?_cons], rfl, rfl⟩
  | passes | arg0 | arg1 | configure | pause => exact .inl rfl

/-- Settles O52: outside the host's turn both registers stay, and in it `PLAY` writes both. -/
theorem bufferChangesOnlyByPlayAndWhole : Obligations.BufferChangesOnlyByPlayAndWhole := by
  intro s t h hplatform
  have hcases : t.buffer = s.buffer ∨ s.nextTurn = .host ∧ s.hostQueue.head? = some (.write 8#32 .word 2#32) ∧
      t.buffer = (s.arg0, s.arg1) ∧ t.timerEnable = true := by
    obtain ⟨hh, ht⟩ | ⟨-, rfl⟩ | ⟨-, rfl⟩ | ⟨-, ht⟩ | ⟨-, rfl⟩ | ⟨hp, -⟩ := step_next h
    · have hhost := hostTurn_buffer ht
      rw [s.takeTurn_buffer, s.takeTurn_hostQueue, s.takeTurn_arg0, s.takeTurn_arg1] at hhost
      exact hhost.imp_right fun hplay => ⟨hh, hplay⟩
    · exact .inl ((congrArg State.buffer (tickTurn_frame _)).trans s.takeTurn_buffer)
    · exact .inl ((congrArg State.buffer (clockTurn_frame _)).trans s.takeTurn_buffer)
    · exact .inl ((congrArg State.buffer (engineTurn_frame ht)).trans s.takeTurn_buffer)
    · exact .inl ((congrArg State.buffer (syncTurn_frame _)).trans s.takeTurn_buffer)
    · exact absurd hp hplatform
  simpa only [State.buffer, Prod.mk.injEq, and_assoc] using hcases

/-! ### The pending flag and the interrupt enable (R26, R143) -/

theorem tickTurn_ovfPending (s : State) : s.tickTurn.ovfPending = (s.timerEnable || s.ovfPending) := by
  unfold State.tickTurn
  cases h : s.timerEnable <;> rfl

/-- A clock cycle keeps the flag, or the armed timer has set it. -/
theorem clockTurn_ovfPending (s : State) :
    s.clockTurn.ovfPending = s.ovfPending ∨ s.timerEnable = true ∧ s.clockTurn.ovfPending = true := by
  obtain ⟨-, h⟩ | ⟨hcounts, -, h⟩ | ⟨-, -, h⟩ := clockTurn_cases s
  · exact .inl (by rw [h])
  · exact .inr ⟨((timerCounts_iff s).1 hcounts).1, by rw [h, State.raiseOverflow_ovfPending]⟩
  · exact .inl (by rw [h])

/-- The engine never sets the flag (R26). -/
theorem engineTurn_ovfPending {s t : State} (h : s.engineTurn = .next t) (hclear : s.ovfPending = false) :
    t.ovfPending = false := by
  obtain rfl | ⟨hready, -⟩ | ⟨-, -, rfl⟩ := engineTurn_next h
  · exact hclear
  · obtain ⟨hpending, -⟩ := (interruptReady_iff s).1 hready
    exact absurd (hclear.symm.trans hpending) (by decide)
  · rfl

/-- No command clears the interrupt enable (R143). -/
theorem hostTurn_irqEnable {s t : State} (h : s.hostTurn = .next t) (hirq : s.irqEnable = true) :
    t.irqEnable = true := by
  cases hostTurn_outcome h with
  | configure => rfl
  | passes | arg0 | arg1 | play | pause => exact hirq

/-- What each turn but the platform's does to the flag: it keeps it, the armed timer sets it, or it is the engine's. -/
theorem step_ovfPending {s t : State} (h : step s = .next t) (hplatform : s.nextTurn ≠ .platform) :
    t.ovfPending = s.ovfPending ∨
    ((s.nextTurn = .tick ∨ s.nextTurn = .clockCycle) ∧ s.timerEnable = true ∧ t.ovfPending = true) ∨
    (s.nextTurn = .engine ∧ (s.ovfPending = false → t.ovfPending = false)) := by
  obtain ⟨-, ht⟩ | ⟨hturn, rfl⟩ | ⟨hturn, rfl⟩ | ⟨hturn, ht⟩ | ⟨-, rfl⟩ | ⟨hp, -⟩ := step_next h
  · exact .inl ((congrArg State.ovfPending (hostTurn_frame ht)).trans s.takeTurn_ovfPending)
  · rw [tickTurn_ovfPending, s.takeTurn_timerEnable, s.takeTurn_ovfPending]
    cases harmed : s.timerEnable with
    | false => exact .inl rfl
    | true => exact .inr (.inl ⟨.inl hturn, rfl, rfl⟩)
  · have hcases := clockTurn_ovfPending s.takeTurn
    rw [s.takeTurn_timerEnable, s.takeTurn_ovfPending] at hcases
    exact hcases.imp_right fun hset => .inl ⟨.inr hturn, hset⟩
  · exact .inr (.inr ⟨hturn, fun hclear => engineTurn_ovfPending ht (s.takeTurn_ovfPending.trans hclear)⟩)
  · exact .inl ((congrArg State.ovfPending (syncTurn_frame _)).trans s.takeTurn_ovfPending)
  · exact absurd hp hplatform

theorem step_keeps_irqEnable {s t : State} (h : step s = .next t) (hplatform : s.nextTurn ≠ .platform)
    (hirq : s.irqEnable = true) : t.irqEnable = true := by
  by_cases hhost : s.nextTurn = .host
  · rw [step_of_nextTurn hhost] at h
    exact hostTurn_irqEnable h (s.takeTurn_irqEnable.trans hirq)
  · obtain ⟨-, -, -, -, -, -, -, hkeep, -⟩ := onlyTheHostWritesTheConfiguration s t h hhost hplatform
    exact hkeep.trans hirq

/-- Settles O53: who sets and who clears the flag, by the three things a turn can do to it. -/
theorem flagAndEnableHaveTheirWriters : Obligations.FlagAndEnableHaveTheirWriters := by
  intro s t h hplatform
  have hflag := step_ovfPending h hplatform
  refine ⟨fun hclear hset => ?set, fun hset hclear => ?clear, step_keeps_irqEnable h hplatform⟩
  case set =>
    obtain hkeep | ⟨hturn, harmed, -⟩ | ⟨-, hengine⟩ := hflag
    · rw [hkeep, hclear] at hset
      cases hset
    · exact ⟨hturn, harmed⟩
    · rw [hengine hclear] at hset
      cases hset
  case clear =>
    obtain hkeep | ⟨-, -, hticked⟩ | ⟨hturn, -⟩ := hflag
    · rw [hkeep, hset] at hclear
      cases hclear
    · rw [hticked] at hclear
      cases hclear
    · exact hturn

/-! ### The trace and the DAC (R31, R133) -/

theorem stepOutcome_trace {s t : State} (h : s.StepOutcome t) :
    t.trace = s.trace ∧ t.dacData = s.dacData ∨ t.trace = s.trace ++ [t.dacData] := by
  cases h with
  | fallThrough => exact .inl ⟨rfl, rfl⟩
  | point | window | stop => exact .inr rfl

/-- The engine's turn emits in a ready step only, and the DAC holds what it emitted. -/
theorem engineTurn_trace {s t : State} (h : s.engineTurn = .next t) :
    t.trace = s.trace ∧ t.dacData = s.dacData ∨ s.interruptReady = true ∧ t.trace = s.trace ++ [t.dacData] := by
  obtain rfl | ⟨hready, hstep⟩ | ⟨-, -, rfl⟩ := engineTurn_next h
  · exact .inl ⟨rfl, rfl⟩
  · obtain ⟨-, -, hidle⟩ := (interruptReady_iff s).1 hready
    obtain ⟨loaded, hload, hout⟩ := engineStep_outcome hidle hstep
    have hcases := stepOutcome_trace hout
    have htrace : loaded.trace = s.trace := (congrArg State.trace (loadWindow_frame hload)).trans rfl
    have hdac : loaded.dacData = s.dacData := (congrArg State.dacData (loadWindow_frame hload)).trans rfl
    rw [htrace, hdac] at hcases
    exact hcases.imp_right fun hemit => ⟨hready, hemit⟩
  · exact .inl ⟨rfl, rfl⟩

@[simp] theorem State.takeTurn_interruptReady (s : State) : s.takeTurn.interruptReady = s.interruptReady := by
  simp [State.interruptReady]

/-- Settles O54: outside the engine's turn trace and DAC are part of the position, which stays. -/
theorem dacHoldsBetweenEmissions : Obligations.DacHoldsBetweenEmissions := by
  intro s t h hplatform
  by_cases hengine : s.nextTurn = .engine
  · rw [step_of_nextTurn hengine] at h
    have hcases := engineTurn_trace h
    rw [s.takeTurn_trace, s.takeTurn_dacData, s.takeTurn_interruptReady] at hcases
    exact hcases.imp_right fun hemit => ⟨hengine, hemit⟩
  · obtain ⟨-, -, -, -, hdac, htrace, -⟩ := onlyTheEngineMovesThePosition s t h hengine hplatform
    exact .inl ⟨htrace, hdac⟩

end Sys2Proof.Machine
end

