-- ==== Sys2Proof/Proofs/SampleLoad.lean ====
section
/-! The sample load (20_memory.md R41, R42, R46; 43_sample_advance_engine.md R111): what it latches, and the faults of a
load that finds no sample. -/

namespace Sys2Proof.Machine

/-! ### The load at phase 0 -/

/-- Settles O27: both elements lie in the buffer, and the previous one is a byte below the current one. -/
theorem windowLoadLatchesBothSamples : Obligations.WindowLoadLatchesBothSamples := by
  intro s
  refine ⟨loadWindow_midWindow, fun c p h0 h1 hlt hc hp => ?_⟩
  have haddr : (s.elementAddr s.sampleIndex).toNat = (s.bufferRef.toNat + s.sampleIndex.toNat) % 2 ^ 32 :=
    BitVec.toNat_add s.bufferRef s.sampleIndex
  have hprevAddr : (s.elementAddr (s.sampleIndex - 1)).toNat =
      (s.bufferRef.toNat + s.sampleIndex.toNat - 1) % 2 ^ 32 := by
    rw [State.elementAddr]
    bv_omega
  have hprevIn : (s.sampleIndex - 1).toNat < s.bufferLength.toNat := by bv_omega
  have hcurrent := readElement_placed hlt (haddr.symm ▸ hc)
  have hprevious := readElement_placed hprevIn (hprevAddr.symm ▸ hp)
  refine ⟨_, loadWindow_latches h0 hcurrent hprevious, rescale_toNat c, rescale_toNat p, ?reads, rfl⟩
  rw [State.latch_reads, State.elementAddr, State.elementAddr, add_sub_assoc]

/-! ### The faults (R46, U5, U12) -/

theorem readElement_unplaced {s : State} {index : Word} (hi : index.toNat < s.bufferLength.toNat)
    (hb : s.mem.read (s.elementAddr index).toNat = none) :
    s.readElement index = .error (.unplacedSample (s.elementAddr index)) := by
  simp [State.readElement, hi, hb]

theorem loadWindow_currentFault {s : State} {f : Fault} (h0 : s.phaseCounter = 0#3)
    (hc : s.readElement s.sampleIndex = .error f) : s.loadWindow = .error f := by
  simp only [State.loadWindow, h0, if_true, hc]

theorem loadWindow_previousFault {s : State} {f : Fault} {c : Byte} (h0 : s.phaseCounter = 0#3)
    (hc : s.readElement s.sampleIndex = .ok c) (hp : s.readElement (s.sampleIndex - 1) = .error f) :
    s.loadWindow = .error f := by
  simp only [State.loadWindow, h0, if_true, hc, hp]

@[simp] theorem State.takeTurn_readElement (s : State) (index : Word) :
    s.takeTurn.readElement index = s.readElement index := by
  unfold State.takeTurn
  split <;> rfl

/-- A ready step whose load faults is that fault (R46). -/
theorem step_loadFault {s : State} {f : Fault} (hready : s.interruptReady = true) (hturn : s.nextTurn = .engine)
    (h : s.takeTurn.loadWindow = .error f) : step s = .fault f := by
  rw [step_of_nextTurn hturn, State.runTurn, engineTurn_ready (s.takeTurn_interruptReady.trans hready)]
  exact engineStep_loadFault h

/-- Settles O28: the current element is tried first, and the previous one is in the buffer with it. -/
theorem readsOutsideTheBufferFault : Obligations.ReadsOutsideTheBufferFault := by
  intro s hready hturn h0
  have h0' : s.takeTurn.phaseCounter = 0#3 := s.takeTurn_phaseCounter.trans h0
  refine ⟨fun hout => ?outside, fun hin hnone => ?unplaced, fun h1 hin hsome hnone => ?previousUnplaced⟩
  case outside =>
    refine step_loadFault hready hturn (loadWindow_currentFault h0' ?_)
    rw [State.takeTurn_readElement, State.takeTurn_sampleIndex, readElement_outside hout, State.elementAddr]
  case unplaced =>
    refine step_loadFault hready hturn (loadWindow_currentFault h0' ?_)
    rw [State.takeTurn_readElement, State.takeTurn_sampleIndex, readElement_unplaced hin hnone, State.elementAddr]
  case previousUnplaced =>
    obtain ⟨c, hc⟩ := Option.isSome_iff_exists.1 hsome
    have hprevIn : (s.sampleIndex - 1).toNat < s.bufferLength.toNat := by bv_omega
    refine step_loadFault hready hturn (loadWindow_previousFault (c := c) h0' ?_ ?_)
    · rw [State.takeTurn_readElement, State.takeTurn_sampleIndex, readElement_placed hin hc]
    · rw [State.takeTurn_readElement, State.takeTurn_sampleIndex, readElement_unplaced hprevIn hnone,
        State.elementAddr]

end Sys2Proof.Machine
end

