-- ==== Sys2Proof/Proofs/WindowEnd.lean ====
section
/-! The end of a window (43_sample_advance_engine.md R113 to R120, R127): `EMIT_FULL`, the flag clear, the
end-of-buffer stop in its two parts, and the keys on which no test of the table matches. -/

namespace Sys2Proof.Machine

/-! ### `EMIT_FULL` (R114, R115 part A) -/

theorem emitFull_end {s : State} (h : s.bufferLength.toNat ≤ (s.sampleIndex + 1).toNat) :
    s.emitFull = (s.emit s.currentValue).nextWindow.beginStop := if_pos h

theorem emitFull_more {s : State} (h : (s.sampleIndex + 1).toNat < s.bufferLength.toNat) :
    s.emitFull = (s.emit s.currentValue).nextWindow := if_neg (Nat.not_le.2 h)

/-- Settles O21: all eight rows run `EMIT_FULL`, and the length test picks its clause. -/
theorem emitFullEndsTheWindow : Obligations.EmitFullEndsTheWindow := by
  intro i hi s
  have hop : microOpOf i = some .full := by
    revert i
    decide
  refine ⟨s.emitFull, exec_phase_row hop s, ?_⟩
  obtain ⟨hend, hfull⟩ | ⟨hmore, hfull⟩ := emitFull_cases s
  · rw [hfull]
    exact ⟨fun hlt => absurd hend (Nat.not_le.2 hlt), fun _ => rfl, fun _ => rfl⟩
  · rw [hfull]
    exact ⟨fun _ => rfl, fun hle => absurd hmore (Nat.not_lt.2 hle), fun _ => rfl⟩

/-! ### The decoded row and the flag clear (R110, R120) -/

/-- Settles O9: the row's meaning runs between the load with the increment and the flag clear. -/
theorem engineTurnRunsTheDecodedRow : Obligations.EngineTurnRunsTheDecodedRow := by
  intro s loaded t i rest ht hready hload hi _ hexec
  have hrun : loaded.nextPhase.runPhase = .next t := (runPhase_row (s := loaded.nextPhase) hi).trans hexec
  have hready' : State.interruptReady { s with turns := rest } = true := hready
  have hstep : step s = .next t.finishStep := by
    rw [step_listed_turn ht, State.runTurn, engineTurn_ready hready', engineStep_eq hload hrun]
  rw [hstep]
  rfl

/-- Settles O32: the flag is clear after every outcome but part A of the stop, which leaves it for part B. -/
theorem engineStepClearsTheFlagOnce : Obligations.EngineStepClearsTheFlagOnce := by
  intro s t hready hstep
  obtain ⟨hpending, -, hidle⟩ := (interruptReady_iff s).1 hready
  obtain ⟨loaded, hload, hout⟩ := engineStep_outcome hidle hstep
  have hready' := (interruptReady_loaded hload).trans hready
  obtain ⟨hpending', -, hidle'⟩ := (interruptReady_iff loaded).1 hready'
  cases hout with
  | point | window | fallThrough => exact .inl ⟨hidle', rfl⟩
  | stop => exact .inr ⟨rfl, hpending', rfl, rfl⟩

/-! ### The end-of-buffer stop (R115) -/

/-- The load leaves the length test of the step and the engine's state alone (R111, R115). -/
theorem loadWindow_keeps_end_test {s loaded : State} (h : s.loadWindow = .ok loaded) :
    loaded.sampleIndex = s.sampleIndex ∧ loaded.bufferLength = s.bufferLength ∧
      loaded.engineState = s.engineState := by
  have hframe := loadWindow_frame h
  exact ⟨(congrArg State.sampleIndex hframe).trans rfl, (congrArg State.bufferLength hframe).trans rfl,
    (congrArg State.engineState hframe).trans rfl⟩

/-- A second tick merges with the first (R103). -/
theorem raiseOverflow_pending {s : State} (h : s.ovfPending = true) : s.raiseOverflow = s := by
  rw [State.raiseOverflow, ← h]

/-- The last step of a window whose next index reaches the buffer length is part A of the stop. -/
theorem engineStep_stop {s loaded : State} (hload : s.loadWindow = .ok loaded) (hp : s.phaseCounter.toNat ≤ 3)
    (hlast : s.factor.toNat ≤ s.phaseCounter.toNat + 1)
    (hend : s.bufferLength.toNat ≤ (s.sampleIndex + 1).toNat) :
    s.engineStep = .next (loaded.emit loaded.currentValue).nextWindow.beginStop := by
  obtain ⟨hfactor, hphase, -⟩ := loadWindow_keeps hload
  obtain ⟨hindex, hlength, -⟩ := loadWindow_keeps_end_test hload
  rw [engineStep_last hload (by rw [hfactor, hphase, phase_succ_of_le_three hp]; exact hlast)]
  rw [emitFull_end (s := loaded.nextPhase) (by simpa [hindex, hlength] using hend), finishStep_waiting rfl]
  rfl

/-- The last step of a window whose next index is inside the buffer goes on to the next window. -/
theorem engineStep_window {s loaded : State} (hidle : s.engineState = .idle) (hload : s.loadWindow = .ok loaded)
    (hp : s.phaseCounter.toNat ≤ 3) (hlast : s.factor.toNat ≤ s.phaseCounter.toNat + 1)
    (hmore : (s.sampleIndex + 1).toNat < s.bufferLength.toNat) :
    s.engineStep = .next (loaded.emit loaded.currentValue).nextWindow.clearOverflow := by
  obtain ⟨hfactor, hphase, -⟩ := loadWindow_keeps hload
  obtain ⟨hindex, hlength, hstate⟩ := loadWindow_keeps_end_test hload
  rw [engineStep_last hload (by rw [hfactor, hphase, phase_succ_of_le_three hp]; exact hlast)]
  rw [emitFull_more (s := loaded.nextPhase) (by simpa [hindex, hlength] using hmore),
    finishStep_idle (s := (loaded.nextPhase.emit _).nextWindow) (hstate.trans hidle)]
  rfl

/-- From part A the synchroniser's turn and the engine's are part B. -/
theorem beginStop_then_endStop (s : State) :
    s.beginStop.syncTurn.engineTurn = .next s.beginStop.endSync.endStop :=
  engineTurn_stopReady rfl

/-- Settles O33: part A by the length test, part B once the synchronisation is over. -/
theorem endOfBufferStopsInTwoParts : Obligations.EndOfBufferStopsInTwoParts := by
  intro s loaded hready _ hp hlast hend hload
  obtain ⟨hpending, -⟩ := (interruptReady_iff loaded).1 ((interruptReady_loaded hload).trans hready)
  refine ⟨_, _, engineStep_stop hload hp hlast hend, ?partA, beginStop_then_endStop _, rfl⟩
  have hflag : (loaded.emit loaded.currentValue).nextWindow.beginStop.ovfPending = true := hpending
  refine (raiseOverflow_pending hflag).symm.trans ?_
  obtain ⟨-, rfl⟩ | ⟨-, c, p, -, -, rfl⟩ := loadWindow_ok hload <;> rfl

/-- Settles O34: in mid-window nothing is loaded, and both clauses of `EMIT_FULL` keep the samples and the reads. -/
theorem loweredFactorEndsTheWindow : Obligations.LoweredFactorEndsTheWindow := by
  intro s hready _ hmid hp hlast
  obtain ⟨-, -, hidle⟩ := (interruptReady_iff s).1 hready
  have hload := loadWindow_midWindow hmid
  rcases Nat.lt_or_ge (s.sampleIndex + 1).toNat s.bufferLength.toNat with hmore | hend
  · exact ⟨_, engineStep_window hidle hload hp hlast hmore, by simp⟩
  · exact ⟨_, engineStep_stop hload hp hlast hend, by simp⟩

/-! ### Off the table (R119) -/

theorem selectMicroOp_none {f p : Nat} (hfull : p < f) (hhalf : p * 2 ≠ f) (hquarter : p * 4 ≠ f) (hthree : p ≠ 3) :
    selectMicroOp f p = none := by
  rw [selectMicroOp, if_neg (Nat.not_le.2 hfull), if_neg hhalf, if_neg hquarter, if_neg hthree]

/-- Settles O31: an enabled interrupt means a configured factor, whose keys all have a row; where no test matches,
only the increment and the flag clear are left of the step. -/
theorem decisionTableNeverFallsThrough : Obligations.DecisionTableNeverFallsThrough := by
  constructor
  · intro s hinv hready
    obtain ⟨-, hirq, -⟩ := (interruptReady_iff s).1 hready
    obtain ⟨hfactor, -⟩ := hinv.configured hirq
    have hrange := hinv.phase_range
    have hphase := phase_succ_of_le_three hrange
    obtain ⟨i, -, hi, -⟩ := decode_legal_key s.factor (s.phaseCounter + 1) hfactor (by omega) (by omega)
    exact ⟨i, hi⟩
  · intro s hmid hidle p hfull hhalf hquarter hthree
    have hnone : selectMicroOp s.nextPhase.factor.toNat s.nextPhase.phaseCounter.toNat = none :=
      selectMicroOp_none hfull hhalf hquarter hthree
    rw [engineStep_loaded (loadWindow_midWindow hmid), phaseRun_unselected hnone,
      finishStep_idle (s := s.nextPhase) hidle]
    rfl

end Sys2Proof.Machine
end

