-- ==== Sys2Proof/Proofs/Independence.lean ====
section
/-! What an engine step does not depend on: the timer and the synchronisation bits (41_playback_control.md R96, R106),
and in mid-window the buffer and its bytes (20_memory.md R48). For each, the step commutes with the change. -/

namespace Sys2Proof.Machine

/-! ### The timer and the synchronisation bits -/

/-- Another timer enable, counter and synchronisation, and nothing else changed. -/
def State.withTimer (s : State) (enable busy waiting : Bool) (count : TimerWord) (draws : Nat) : State :=
  { s with timerEnable := enable, syncBusy := busy, hostBusy := waiting, count := count, countDraws := draws }

/-- The same state but for the timer enable, the counter and the synchronisation bits. -/
def State.SameButTimer (s s' : State) : Prop :=
  ∃ enable busy waiting count draws, s' = s.withTimer enable busy waiting count draws

theorem State.SameButTimer.nextPhase {s s' : State} (h : s.SameButTimer s') :
    s.nextPhase.SameButTimer s'.nextPhase := by
  obtain ⟨enable, busy, waiting, count, draws, rfl⟩ := h
  exact ⟨enable, busy, waiting, count, draws, rfl⟩

theorem State.SameButTimer.emit {s s' : State} (h : s.SameButTimer s') (v : DacValue) :
    (s.emit v).SameButTimer (s'.emit v) := by
  obtain ⟨enable, busy, waiting, count, draws, rfl⟩ := h
  exact ⟨enable, busy, waiting, count, draws, rfl⟩

/-- The load does not look at the timer, whether it answers or faults. -/
theorem loadWindow_withTimer (s : State) (enable busy waiting : Bool) (count : TimerWord) (draws : Nat) :
    (s.withTimer enable busy waiting count draws).loadWindow =
      s.loadWindow.map (·.withTimer enable busy waiting count draws) := by
  by_cases h0 : s.phaseCounter = 0#3
  case neg =>
    rw [loadWindow_midWindow h0]
    exact loadWindow_midWindow (s := s.withTimer enable busy waiting count draws) h0
  case pos =>
    cases hc : s.readElement s.sampleIndex with
    | error f =>
      rw [loadWindow_currentFault h0 hc]
      exact loadWindow_currentFault (s := s.withTimer enable busy waiting count draws) h0 hc
    | ok c =>
      cases hp : s.readElement (s.sampleIndex - 1) with
      | error f =>
        rw [loadWindow_previousFault h0 hc hp]
        exact loadWindow_previousFault (s := s.withTimer enable busy waiting count draws) h0 hc hp
      | ok p =>
        rw [loadWindow_latches h0 hc hp]
        exact loadWindow_latches (s := s.withTimer enable busy waiting count draws) h0 hc hp

/-- Part A of the stop overwrites the timer's registers, so that they differ no more than before. -/
theorem State.SameButTimer.emitFull {s s' : State} (h : s.SameButTimer s') : s.emitFull.SameButTimer s'.emitFull := by
  obtain ⟨enable, busy, waiting, count, draws, rfl⟩ := h
  rcases Nat.lt_or_ge (s.sampleIndex + 1).toNat s.bufferLength.toNat with hmore | hend
  · rw [emitFull_more hmore, emitFull_more (s := s.withTimer enable busy waiting count draws) hmore]
    exact ⟨enable, busy, waiting, count, draws, rfl⟩
  · rw [emitFull_end hend, emitFull_end (s := s.withTimer enable busy waiting count draws) hend]
    exact ⟨false, true, waiting, Config.freeCount draws, draws + 1, rfl⟩

theorem State.SameButTimer.runMicroOp {s s' : State} (h : s.SameButTimer s') (op : MicroOp) :
    (s.runMicroOp op).SameButTimer (s'.runMicroOp op) := by
  by_cases hop : op = .full
  · subst hop
    exact h.emitFull
  · have hvalue : emission s'.currentValue s'.previousValue op = emission s.currentValue s.previousValue op := by
      obtain ⟨enable, busy, waiting, count, draws, rfl⟩ := h
      rfl
    rw [runMicroOp_interior hop, runMicroOp_interior hop, hvalue]
    exact h.emit _

theorem State.SameButTimer.phaseRun {s s' : State} (h : s.SameButTimer s') : s.phaseRun.SameButTimer s'.phaseRun := by
  have hkey : selectMicroOp s'.factor.toNat s'.phaseCounter.toNat =
      selectMicroOp s.factor.toNat s.phaseCounter.toNat := by
    obtain ⟨enable, busy, waiting, count, draws, rfl⟩ := h
    rfl
  cases hsel : selectMicroOp s.factor.toNat s.phaseCounter.toNat with
  | none =>
    rw [phaseRun_unselected hsel, phaseRun_unselected (hkey.trans hsel)]
    exact h
  | some op =>
    rw [phaseRun_selected hsel, phaseRun_selected (hkey.trans hsel)]
    exact h.runMicroOp op

theorem State.SameButTimer.finishStep {s s' : State} (h : s.SameButTimer s') :
    s.finishStep.SameButTimer s'.finishStep := by
  obtain ⟨enable, busy, waiting, count, draws, rfl⟩ := h
  cases he : s.engineState with
  | idle =>
    rw [finishStep_idle he, finishStep_idle (s := s.withTimer enable busy waiting count draws) he]
    exact ⟨enable, busy, waiting, count, draws, rfl⟩
  | waitSync =>
    rw [finishStep_waiting he, finishStep_waiting (s := s.withTimer enable busy waiting count draws) he]
    exact ⟨enable, busy, waiting, count, draws, rfl⟩

/-- An engine step commutes with a change of the timer's registers and the synchronisation bits (R96, R106). -/
theorem engineStep_withTimer {s t : State} (enable busy waiting : Bool) (count : TimerWord) (draws : Nat)
    (h : s.engineStep = .next t) :
    ∃ t', (s.withTimer enable busy waiting count draws).engineStep = .next t' ∧ t.SameButTimer t' := by
  obtain ⟨loaded, ran, hload, hrun, rfl⟩ := engineStep_next h
  rw [runPhase_eq] at hrun
  cases hrun
  have hload' := loadWindow_withTimer s enable busy waiting count draws
  rw [hload] at hload'
  have hsame : loaded.SameButTimer (loaded.withTimer enable busy waiting count draws) := ⟨_, _, _, _, _, rfl⟩
  exact ⟨_, engineStep_loaded hload', hsame.nextPhase.phaseRun.finishStep⟩

theorem engineStep_fault {s : State} {f : Fault} (h : s.engineStep = .fault f) : s.loadWindow = .error f := by
  cases hload : s.loadWindow with
  | error g =>
    rw [engineStep_loadFault hload] at h
    cases h
    rfl
  | ok loaded =>
    rw [engineStep_loaded hload] at h
    cases h

/-- The engine step refuses nothing: refusals are the host port's (R65, R80, R162). -/
theorem engineStep_ne_refused (s : State) (r : Refusal) : s.engineStep ≠ .refused r := by
  intro h
  cases hload : s.loadWindow with
  | error g =>
    rw [engineStep_loadFault hload] at h
    cases h
  | ok loaded =>
    rw [engineStep_loaded hload] at h
    cases h

/-- Settles O19: the outcomes agree but for the registers that were changed. -/
theorem engineStepIgnoresTheTimer : Obligations.EngineStepIgnoresTheTimer := by
  intro s enable busy waiting count draws s'
  split
  case h_1 t ht =>
    obtain ⟨t', ht', enable', busy', waiting', count', draws', rfl⟩ :=
      engineStep_withTimer enable busy waiting count draws ht
    exact ⟨_, ht', rfl, rfl, rfl, rfl, rfl, rfl, rfl, rfl, rfl⟩
  case h_2 f hf =>
    have hload := loadWindow_withTimer s enable busy waiting count draws
    rw [engineStep_fault hf] at hload
    exact engineStep_loadFault hload
  case h_3 r hr => exact absurd hr (engineStep_ne_refused s r)

/-- Settles O20: `PAUSE` changes only what an engine step does not read. -/
theorem pendingTickSurvivesPause : Obligations.PendingTickSurvivesPause := by
  intro s paused t hready hpause hstep
  rw [exec_pause_eq] at hpause
  cases hpause
  obtain ⟨t', ht', _, _, _, _, _, rfl⟩ := engineStep_withTimer false true true _ (s.countDraws + 1) hstep
  exact ⟨rfl, hready, _, ht', rfl⟩

/-! ### The buffer in mid-window (R48) -/

/-- Another memory and another buffer reference, and nothing else changed. -/
def State.withBuffer (s : State) (m : Memory) (ref : Word) : State := { s with mem := m, bufferRef := ref }

theorem emitFull_withBuffer (s : State) (m : Memory) (ref : Word) :
    (s.withBuffer m ref).emitFull = s.emitFull.withBuffer m ref := by
  rcases Nat.lt_or_ge (s.sampleIndex + 1).toNat s.bufferLength.toNat with hmore | hend
  · rw [emitFull_more hmore, emitFull_more (s := s.withBuffer m ref) hmore]
    rfl
  · rw [emitFull_end hend, emitFull_end (s := s.withBuffer m ref) hend]
    rfl

theorem runMicroOp_withBuffer (s : State) (m : Memory) (ref : Word) (op : MicroOp) :
    (s.withBuffer m ref).runMicroOp op = (s.runMicroOp op).withBuffer m ref := by
  cases op with
  | full => exact emitFull_withBuffer s m ref
  | half | quarter | threeQuarter => rfl

theorem phaseRun_withBuffer (s : State) (m : Memory) (ref : Word) :
    (s.withBuffer m ref).phaseRun = s.phaseRun.withBuffer m ref := by
  cases hsel : selectMicroOp s.factor.toNat s.phaseCounter.toNat with
  | none => rw [phaseRun_unselected hsel, phaseRun_unselected (s := s.withBuffer m ref) hsel]
  | some op =>
    rw [phaseRun_selected hsel, phaseRun_selected (s := s.withBuffer m ref) hsel, runMicroOp_withBuffer]

theorem finishStep_withBuffer (s : State) (m : Memory) (ref : Word) :
    (s.withBuffer m ref).finishStep = s.finishStep.withBuffer m ref := by
  cases he : s.engineState with
  | idle =>
    rw [finishStep_idle he, finishStep_idle (s := s.withBuffer m ref) he]
    rfl
  | waitSync => rw [finishStep_waiting he, finishStep_waiting (s := s.withBuffer m ref) he]

/-- Settles O29: in mid-window nothing is loaded, and the rest of the step commutes with the change. -/
theorem midWindowStepIgnoresMemory : Obligations.MidWindowStepIgnoresMemory := by
  intro s t m ref hmid hstep
  rw [engineStep_loaded (loadWindow_midWindow hmid)] at hstep
  cases hstep
  have hload : (s.withBuffer m ref).loadWindow = .ok (s.withBuffer m ref) := loadWindow_midWindow hmid
  have hphase : (s.withBuffer m ref).nextPhase = s.nextPhase.withBuffer m ref := rfl
  have hstep' := engineStep_loaded hload
  rw [hphase, phaseRun_withBuffer, finishStep_withBuffer] at hstep'
  exact hstep'

end Sys2Proof.Machine
end

