-- ==== Sys2Proof/Proofs/Rates.lean ====
section
/-! The rate `CONFIGURE` programs (40_clock_configurator.md R81, R82, R100): any other oversampling counts as 1, and the
truncated top value is the largest whose period is not too long. -/

namespace Sys2Proof.Machine

/-- Settles O13: the top value is a truncated quotient by a product that is not 0. -/
theorem configuredRateIsSlightlyHigh : Obligations.ConfiguredRateIsSlightlyHigh := by
  intro s t h
  rw [exec_configure] at h
  obtain ⟨⟨hfrequency, -, hfits⟩, rfl⟩ := execConfigure_next h
  have htop := programClock_top_toNat hfits s (coerceFactor s.arg1)
  have hfactor : 0 < (coerceFactor s.arg1).toNat := by
    rcases coerceFactor_legal s.arg1 with hf | hf | hf <;> rw [hf] <;> decide
  have hproduct : 0 < s.arg0.toNat * (coerceFactor s.arg1).toNat := Nat.mul_pos (by bv_omega) hfactor
  rw [State.drawCount_top, State.startHostWait_top, htop, State.drawCount_factor, State.startHostWait_factor,
    State.programClock_factor, State.requestedTop, topValue]
  exact ⟨Nat.div_mul_le_self _ _, Nat.lt_mul_of_div_lt (Nat.lt_succ_self _) hproduct⟩

/-- Another `ARG1`, and nothing else changed. -/
def State.withOversampling (s : State) (oversampling : Word) : State := { s with arg1 := oversampling }

theorem requestedTop_withOversampling {s : State} {o : Word} (h : coerceFactor o = coerceFactor s.arg1) :
    (s.withOversampling o).requestedTop = s.requestedTop := by
  simp only [State.requestedTop, State.withOversampling, h]

/-- Settles O11: the two runs make the same tests on the same values. -/
theorem configureTreatsOtherFactorsAsOne : Obligations.ConfigureTreatsOtherFactorsAsOne := by
  intro s h1 h2 h4
  have hcoerce : coerceFactor 1#32 = coerceFactor s.arg1 := (coerceFactor_of_illegal s.arg1 h1 h2 h4).symm
  have htop : (s.withOversampling 1#32).requestedTop = s.requestedTop := requestedTop_withOversampling hcoerce
  have hrun : exec .configure { s with arg1 := 1#32 } = execConfigure (s.withOversampling 1#32) := rfl
  rw [hrun, exec_configure]
  by_cases h0 : s.arg0 = 0#32
  · rw [execConfigure_zeroFrequency (s := s.withOversampling 1#32) h0]
    exact execConfigure_zeroFrequency h0
  by_cases hzero : s.requestedTop = 0
  · rw [execConfigure_topZero (s := s.withOversampling 1#32) h0 (htop.trans hzero)]
    exact execConfigure_topZero h0 hzero
  by_cases hlarge : 2 ^ 16 ≤ s.requestedTop
  · rw [execConfigure_topTooLarge (s := s.withOversampling 1#32) h0 (htop.symm ▸ hlarge)]
    exact execConfigure_topTooLarge h0 hlarge
  · have hlegal : s.legalRate := ⟨h0, Nat.one_le_iff_ne_zero.2 hzero, Nat.lt_of_not_le hlarge⟩
    have hlegal' : (s.withOversampling 1#32).legalRate := ⟨h0, htop.symm ▸ hlegal.2⟩
    rw [execConfigure_legal hlegal', htop]
    exact (execConfigure_legal hlegal).trans (by rw [← hcoerce]; rfl)

end Sys2Proof.Machine
end

