-- ==== Sys2Proof/Proofs/Play.lean ====
section
/-! `PLAY` (41_playback_control.md R90 to R97), alone and after a `PAUSE`, and the host's turn that runs a command. -/

namespace Sys2Proof.Machine

theorem exec_play (s : State) : exec .play s = execPlay s := rfl

/-- `PLAY` after a `CONFIGURE` as one record update, with the value the count draws (R90, R91, R105). -/
theorem exec_play_eq {s : State} (h : s.irqEnable = true) :
    exec .play s =
      .next { s with bufferRef := s.arg0, bufferLength := s.arg1, timerEnable := true, syncBusy := true,
                     hostBusy := true, count := Config.freeCount s.countDraws, countDraws := s.countDraws + 1 } :=
  (exec_play s).trans (execPlay_configured h)

/-- Settles O14: `PLAY` is that update. -/
theorem playInstallsTheBufferAndArms : Obligations.PlayInstallsTheBufferAndArms := by
  intro s hirq
  exact ⟨_, exec_play_eq hirq, rfl, fun _ => rfl⟩

/-- Settles O15: the refusal is the other branch of the test on `irqEnable`. -/
theorem playBeforeConfigureIsRefused : Obligations.PlayBeforeConfigureIsRefused := by
  intro s hirq
  rw [exec_play, execPlay, if_neg (by rw [hirq]; decide)]

/-- Writing back what the buffer registers, the enable and the synchronisation bits hold changes nothing. -/
theorem State.write_back (s : State) {ref length : Word} {armed busy waiting : Bool} (href : ref = s.bufferRef)
    (hlength : length = s.bufferLength) (harmed : armed = s.timerEnable) (hbusy : busy = s.syncBusy)
    (hwaiting : waiting = s.hostBusy) (count : TimerWord) (draws : Nat) :
    { s with bufferRef := ref, bufferLength := length, timerEnable := armed, syncBusy := busy, hostBusy := waiting,
             count := count, countDraws := draws } = { s with count := count, countDraws := draws } := by
  subst href hlength harmed hbusy hwaiting
  rfl

/-- Installing the installed buffer and arming the armed timer changes nothing (R92). -/
theorem installAndArm_same {s : State} (harmed : s.timerEnable = true) (href : s.bufferRef = s.arg0)
    (hlength : s.bufferLength = s.arg1) : s.installAndArm = s :=
  s.write_back href.symm hlength.symm harmed.symm rfl rfl s.count s.countDraws

/-- Settles O16: only the wait and the draw of the count are left of `PLAY`. -/
theorem playAgainChangesNothingElse : Obligations.PlayAgainChangesNothingElse := by
  intro s hirq harmed href hlength
  refine ⟨_, (exec_play s).trans (execPlay_configured hirq), ?_⟩
  rw [installAndArm_same harmed href hlength]
  rfl

/-- The synchronisation of a command ends its wait (R104). -/
theorem syncTurn_busy {s : State} (h : s.syncBusy = true) : s.syncTurn = s.endSync := if_pos h

/-- Settles O18: `PLAY` arms again what `PAUSE` has disarmed, and each synchronisation ends its command's wait. -/
theorem pauseThenPlayResumes : Obligations.PauseThenPlayResumes := by
  intro s hirq harmed hsync hbusy href hlength
  exact ⟨_, _, exec_pause_eq s, exec_play_eq hirq,
    s.write_back href.symm hlength.symm harmed.symm hsync.symm hbusy.symm _ _⟩

/-- Settles O8: the port is free, and the word at `CMD` names the command. -/
theorem hostTurnRunsTheDecodedCommand : Obligations.HostTurnRunsTheDecodedCommand := by
  intro s w i rest queue ht hbusy hidle hqueue hi _
  rw [step_host_ready ht hqueue hbusy hidle]
  exact acceptAccess_command (HostAccess.target_cmd w) hi _

end Sys2Proof.Machine
end

