-- ==== Sys2Proof/Proofs/Turns.lean ====
section
/-! The turns of the timer, the synchroniser and the platform (42_timer_trigger.md R100 to R105; 20_memory.md R50). -/

namespace Sys2Proof.Machine

/-! ### The tick and the synchroniser (R101, R103, R104) -/

theorem tickTurn_armed {s : State} (h : s.timerEnable = true) : s.tickTurn = s.raiseOverflow := if_pos h

/-- Settles O37: the two branches of the test on the timer enable. -/
theorem tickSetsThePendingFlag : Obligations.TickSetsThePendingFlag := by
  intro s rest ht
  rw [step_listed_turn ht]
  exact ⟨fun harmed => congrArg Host.Outcome.next (tickTurn_armed harmed),
    fun hdisarmed => congrArg Host.Outcome.next (tickTurn_disarmed hdisarmed)⟩

/-- Settles O40: the two branches of the test on the synchronisation. -/
theorem syncCompleteEndsTheWait : Obligations.SyncCompleteEndsTheWait := by
  intro s rest ht
  rw [step_listed_turn ht]
  exact ⟨fun hbusy => congrArg Host.Outcome.next (syncTurn_busy hbusy),
    fun hidle => congrArg Host.Outcome.next (syncTurn_notBusy hidle)⟩

/-! ### The cycles of the input clock (R100, R105) -/

theorem clockTurn_stopped {s : State} (h : ¬ s.timerCounts = true) : s.clockTurn = s := if_neg h

theorem clockTurn_period {s : State} (h : s.timerCounts = true) (hend : s.top.toNat ≤ s.count.toNat + 1) :
    s.clockTurn = { s with count := 0, ovfPending := true } := by
  rw [State.clockTurn, if_pos h, if_pos hend]
  rfl

theorem clockTurn_counts {s : State} (h : s.timerCounts = true) (hlt : s.count.toNat + 1 < s.top.toNat) :
    s.clockTurn = { s with count := s.count + 1 } := by
  rw [State.clockTurn, if_pos h, if_neg (Nat.not_le.2 hlt)]

/-- Another counter value, and nothing else changed. -/
def State.withCount (s : State) (c : TimerWord) : State := { s with count := c }

/-- A sum below the period is inside the counter's 16 bits (R25). -/
theorem count_add_toNat {c top : TimerWord} {k : Nat} (hk : k = 0 ∨ c.toNat + k < top.toNat) :
    (c + BitVec.ofNat 16 k).toNat = c.toNat + k := by
  have htop := top.isLt
  have hcount := c.isLt
  rw [BitVec.toNat_add, BitVec.toNat_ofNat]
  omega

/-- As long as the period is not over, each cycle adds 1 to the count. -/
theorem clockTurn_iterate {s : State} (h : s.timerCounts = true) (k : Nat)
    (hk : k = 0 ∨ s.count.toNat + k < s.top.toNat) :
    State.clockTurn^[k] s = s.withCount (s.count + BitVec.ofNat 16 k) := by
  induction k with
  | zero =>
    rw [Function.iterate_zero_apply, BitVec.add_zero]
    rfl
  | succ k ih =>
    have hbefore : k = 0 ∨ s.count.toNat + k < s.top.toNat := by omega
    have hlt : (s.count + BitVec.ofNat 16 k).toNat + 1 < s.top.toNat := by
      rw [count_add_toNat hbefore]
      omega
    rw [Function.iterate_succ_apply', ih hbefore,
      clockTurn_counts (s := s.withCount (s.count + BitVec.ofNat 16 k)) h hlt, BitVec.ofNat_add, ← BitVec.add_assoc]
    rfl

/-- The cycle that ends the period puts the count at 0 and ticks. -/
theorem clockTurn_iterate_period {s : State} (h : s.timerCounts = true) {k : Nat}
    (hk : k = 0 ∨ s.count.toNat + k < s.top.toNat) (hend : s.top.toNat ≤ s.count.toNat + k + 1) :
    State.clockTurn^[k + 1] s = { s with count := 0, ovfPending := true } := by
  have hlast : s.top.toNat ≤ (s.count + BitVec.ofNat 16 k).toNat + 1 := by
    rw [count_add_toNat hk]
    exact hend
  rw [Function.iterate_succ_apply', clockTurn_iterate h k hk,
    clockTurn_period (s := s.withCount (s.count + BitVec.ofNat 16 k)) h hlast]
  rfl

/-- Settles O38: one cycle by the three cases of R100, a period by iteration from count 0. -/
theorem timerTicksEveryTopCycles : Obligations.TimerTicksEveryTopCycles := by
  refine ⟨fun s rest ht => ?cycle, fun s h h0 htop => ?period⟩
  case cycle =>
    rw [step_listed_turn ht, ← timerCounts_iff]
    exact ⟨fun h => ⟨fun hend => congrArg Host.Outcome.next (clockTurn_period h hend),
      fun hlt => congrArg Host.Outcome.next (clockTurn_counts h hlt)⟩,
      fun h => congrArg Host.Outcome.next (clockTurn_stopped h)⟩
  case period =>
    have hzero : s.count.toNat = 0 := congrArg BitVec.toNat h0
    constructor
    · intro k hk
      rw [clockTurn_iterate h k (.inr (by omega)), h0, BitVec.zero_add]
      rfl
    · obtain ⟨k, hk⟩ := Nat.exists_eq_add_of_le' htop
      rw [hk, clockTurn_iterate_period h (by omega) (by omega)]
      exact congrArg (fun c => { s with count := c, ovfPending := true }) h0.symm

/-- Settles O39: the cycles that are left of the period, or 1 when the count is already past it. -/
theorem firstTickComesWithinTopCycles : Obligations.FirstTickComesWithinTopCycles := by
  intro s h htop hclear
  refine ⟨s.top.toNat - s.count.toNat - 1 + 1, by omega, by omega, fun j hj => ?before, ?_⟩
  case before =>
    rw [clockTurn_iterate h j (by omega)]
    exact hclear
  rw [clockTurn_iterate_period h (by omega) (by omega)]
  exact ⟨rfl, rfl⟩

/-! ### The platform (R47, R50) -/

theorem platformTurn_place {s : State} {addr : Word} {v : Byte} {queue : List PlatformAction}
    (h : s.platformQueue = .place addr v :: queue) :
    s.platformTurn = { s with platformQueue := queue, mem := s.mem.write addr.toNat v } := by
  simp [State.platformTurn, h]

theorem platformTurn_release {s : State} {addr : Word} {queue : List PlatformAction}
    (h : s.platformQueue = .release addr :: queue) :
    s.platformTurn = { s with platformQueue := queue, mem := s.mem.release addr.toNat } := by
  simp [State.platformTurn, h]

/-- Settles O45, by what a memory reads after a write and after a release. -/
theorem platformWritesAreReadBack : Obligations.PlatformWritesAreReadBack := by
  intro s rest queue addr v ht
  refine ⟨fun hq => ?place, fun hq hwf => ?release⟩
  case place =>
    have hstep : step s = .next { s with turns := rest, platformQueue := queue, mem := s.mem.write addr.toNat v } := by
      rw [step_listed_turn ht]
      exact congrArg Host.Outcome.next (platformTurn_place hq)
    exact ⟨_, hstep, Memory.read_write_same _ _ _, fun a ha => Memory.read_write_other _ _ _ _ ha, rfl⟩
  case release =>
    have hstep : step s = .next { s with turns := rest, platformQueue := queue, mem := s.mem.release addr.toNat } := by
      rw [step_listed_turn ht]
      exact congrArg Host.Outcome.next (platformTurn_release hq)
    exact ⟨_, hstep, Memory.read_release_same _ _ hwf, fun a ha => Memory.read_release_other _ _ _ ha, rfl⟩

end Sys2Proof.Machine
end

