-- ==== Sys2Proof/Proofs/FairRuns.lean ====
section
/-! Endless runs under weak fairness (70_reset_and_hazards.md R181): a command's synchronisation ends, and the wait at
the end of the buffer ends with part B. All of it rests on one rule about an agent that stays enabled. -/

namespace Sys2Proof.Machine

/-! ### Runs and weak fairness -/

/-- The invariant holds all along a run that starts in it. -/
theorem IsRun.inv {r : Nat → State} (hr : IsRun r) (h0 : Inv (r 0)) (n : Nat) : Inv (r n) := by
  induction n with
  | zero => exact h0
  | succ n ih => exact stepKeepsTheInvariant _ _ ih (hr n)

/-- An agent that stays enabled gets its turn: what the three fairness assumptions of R181 have in common. -/
def WeaklyFair (r : Nat → State) (enabled : State → Bool) (turn : Turn) : Prop :=
  ∀ n, (∀ m, n ≤ m → enabled (r m) = true) → ∃ m, n ≤ m ∧ (r m).nextTurn = turn

theorem syncFair_iff (r : Nat → State) : SyncFair r ↔ WeaklyFair r State.syncBusy .syncComplete := Iff.rfl
theorem tickFair_iff (r : Nat → State) : TickFair r ↔ WeaklyFair r State.timerEnable .tick := Iff.rfl
theorem engineFair_iff (r : Nat → State) : EngineFair r ↔ WeaklyFair r State.engineReady .engine := Iff.rfl

/-- A property that keeps an agent enabled, is left only for a goal, and is left for it in the agent's turn, leads to
that goal. -/
theorem WeaklyFair.leads_to {r : Nat → State} {enabled : State → Bool} {turn : Turn} (hf : WeaklyFair r enabled turn)
    {P Q : State → Prop} (henabled : ∀ m, P (r m) → enabled (r m) = true)
    (hkeep : ∀ m, P (r m) → P (r (m + 1)) ∨ Q (r (m + 1)))
    (hturn : ∀ m, P (r m) → (r m).nextTurn = turn → Q (r (m + 1))) {n : Nat} (hn : P (r n)) :
    ∃ m, n ≤ m ∧ Q (r m) := by
  by_contra hnever
  have hnot : ∀ m, n ≤ m → ¬ Q (r m) := fun m hm hq => hnever ⟨m, hm, hq⟩
  have hstays : ∀ m, n ≤ m → P (r m) := by
    intro m hm
    induction m, hm using Nat.le_induction with
    | base => exact hn
    | succ m hm ih => exact (hkeep m ih).resolve_right (hnot (m + 1) (Nat.le_succ_of_le hm))
  obtain ⟨m, hm, hnext⟩ := hf n fun m hm => henabled m (hstays m hm)
  exact hnot (m + 1) (Nat.le_succ_of_le hm) (hturn m (hstays m hm) hnext)

/-! ### The host's wait (R104) -/

theorem step_syncComplete {s t : State} (h : step s = .next t) (hturn : s.nextTurn = .syncComplete) :
    t = s.takeTurn.syncTurn := by
  rw [step_of_nextTurn hturn] at h
  cases h
  rfl

/-- Settles O41: a waiting host keeps the synchroniser enabled, whose turn ends the wait. -/
theorem fairSynchronisationFreesTheHost : Obligations.FairSynchronisationFreesTheHost := by
  intro r hr h0 hfair n hn
  have hsync : ∀ m, (r m).hostBusy = true → (r m).syncBusy = true := fun m => (hr.inv h0 m).host_waits_for_sync
  refine ((syncFair_iff r).1 hfair).leads_to (P := fun s => s.hostBusy = true) (Q := fun s => s.hostBusy = false)
    hsync (fun m _ => ?keep) (fun m hm hturn => ?turn) hn
  case keep => exact Bool.eq_false_or_eq_true _
  case turn => rw [step_syncComplete (hr m) hturn, syncTurn_busy (by simpa using hsync m hm), State.endSync_hostBusy]

/-! ### The wait at the end of the buffer (R115) -/

/-- The platform's turn without a reset writes memory and its own queue only (R50). -/
theorem platformTurn_frame {s : State} (h : s.platformQueue.head? ≠ some .reset) :
    s.platformTurn = { s with platformQueue := s.platformTurn.platformQueue, mem := s.platformTurn.mem } := by
  obtain ⟨-, heq⟩ | ⟨addr, v, queue, -, heq⟩ | ⟨addr, queue, -, heq⟩ | ⟨queue, hqueue, -⟩ := platformTurn_cases s
  · rw [heq]
  · rw [heq]
  · rw [heq]
  · rw [hqueue] at h
    exact absurd rfl h

/-- The platform resets the block in this step (R160). -/
def State.ResetFalls (s : State) : Prop := s.nextTurn = .platform ∧ s.platformQueue.head? = some .reset

theorem noReset_iff (r : Nat → State) : NoReset r ↔ ∀ n, ¬ (r n).ResetFalls := Iff.rfl

theorem step_reset {s t : State} (hreset : s.ResetFalls) (h : step s = .next t) : t.engineState = .idle := by
  obtain ⟨hturn, hhead⟩ := hreset
  obtain ⟨queue, hqueue⟩ := List.head?_eq_some_iff.1 ((congrArg List.head? s.takeTurn_platformQueue).trans hhead)
  rw [step_of_nextTurn hturn] at h
  cases h
  rw [platformTurn_reset hqueue]
  rfl

/-- The engine waits at the end of the buffer, with these emissions made. -/
structure State.Waiting (s : State) (trace : List DacValue) : Prop where
  waits : s.engineState = .waitSync
  emitted : s.trace = trace

theorem State.Waiting.takeTurn {s : State} {trace : List DacValue} (h : s.Waiting trace) : s.takeTurn.Waiting trace :=
  ⟨s.takeTurn_engineState.trans h.waits, s.takeTurn_trace.trans h.emitted⟩

theorem State.Waiting.syncTurn {s : State} {trace : List DacValue} (h : s.Waiting trace) : s.syncTurn.Waiting trace :=
  ⟨(congrArg State.engineState (syncTurn_frame s)).trans h.waits,
    (congrArg State.trace (syncTurn_frame s)).trans h.emitted⟩

theorem State.Waiting.platformTurn {s : State} {trace : List DacValue} (h : s.Waiting trace)
    (hreset : s.platformQueue.head? ≠ some .reset) : s.platformTurn.Waiting trace :=
  ⟨(congrArg State.engineState (platformTurn_frame hreset)).trans h.waits,
    (congrArg State.trace (platformTurn_frame hreset)).trans h.emitted⟩

@[simp] theorem State.syncTurn_syncBusy (s : State) : s.syncTurn.syncBusy = false := by
  cases h : s.syncBusy with
  | false => rw [syncTurn_notBusy h, h]
  | true => rw [syncTurn_busy h, State.endSync_syncBusy]

theorem step_endStop {s t : State} {trace : List DacValue} (hw : s.Waiting trace) (hsync : s.syncBusy = false)
    (hturn : s.nextTurn = .engine) (h : step s = .next t) : t = s.takeTurn.endStop := by
  have hready : s.takeTurn.stopReady = true :=
    (stopReady_iff _).2 ⟨hw.takeTurn.waits, s.takeTurn_syncBusy.trans hsync⟩
  rw [step_of_nextTurn hturn, State.runTurn, engineTurn_stopReady hready] at h
  cases h
  rfl

/-- Everything a step can do while the engine waits: the wait goes on, with nothing emitted and no synchronisation
begun, or part B ends it, or the platform resets the block. -/
theorem step_waiting {s t : State} {trace : List DacValue} (hinv : Inv s) (hw : s.Waiting trace)
    (h : step s = .next t) :
    (t.Waiting trace ∧ (s.syncBusy = false → t.syncBusy = false)) ∨ t = s.takeTurn.endStop ∨ s.ResetFalls := by
  have hpass : step s = .next s.takeTurn → t.Waiting trace ∧ (s.syncBusy = false → t.syncBusy = false) := by
    intro hstep
    rw [hstep] at h
    cases h
    exact ⟨hw.takeTurn, s.takeTurn_syncBusy.trans⟩
  cases hturn : s.nextTurn with
  | host => exact .inl (hpass (step_waiting_passes hinv hw.waits (.inl hturn)))
  | tick => exact .inl (hpass (step_waiting_passes hinv hw.waits (.inr (.inl hturn))))
  | clockCycle => exact .inl (hpass (step_waiting_passes hinv hw.waits (.inr (.inr hturn))))
  | engine =>
    cases hsync : s.syncBusy with
    | true =>
      have hblocked := waitingBlockIsDead s hinv hw.waits hsync (by rw [hturn]; decide) (by rw [hturn]; decide)
      exact .inl ⟨(hpass hblocked).1, nofun⟩
    | false => exact .inr (.inl (step_endStop hw hsync hturn h))
  | syncComplete =>
    rw [step_syncComplete h hturn]
    exact .inl ⟨hw.takeTurn.syncTurn, fun _ => State.syncTurn_syncBusy _⟩
  | platform =>
    by_cases hreset : s.platformQueue.head? = some .reset
    · exact .inr (.inr ⟨hturn, hreset⟩)
    · have hreset' : s.takeTurn.platformQueue.head? ≠ some .reset := by rwa [s.takeTurn_platformQueue]
      rw [step_of_nextTurn hturn] at h
      cases h
      refine .inl ⟨hw.takeTurn.platformTurn hreset', fun hsync => ?_⟩
      exact (congrArg State.syncBusy (platformTurn_frame hreset')).trans (s.takeTurn_syncBusy.trans hsync)

/-- The block after part B of the stop: idle, disarmed, no tick pending, at index 1, phase 0 (R115). -/
structure State.Stopped (s : State) (trace : List DacValue) : Prop where
  idle : s.engineState = .idle
  disarmed : s.timerEnable = false
  clear : s.ovfPending = false
  index : s.sampleIndex = 1#32
  phase : s.phaseCounter = 0#3
  emitted : s.trace = trace

theorem State.Waiting.endStop {s : State} {trace : List DacValue} (hinv : Inv s) (h : s.Waiting trace) :
    s.takeTurn.endStop.Stopped trace := by
  obtain ⟨hdisarmed, -, hphase, -⟩ := hinv.stopping h.waits
  exact ⟨rfl, s.takeTurn_timerEnable.trans hdisarmed, rfl, rfl, s.takeTurn_phaseCounter.trans hphase,
    h.takeTurn.emitted⟩

/-- The wait is over: the engine is idle, and unless a reset falls in the run it was part B that ended the wait. -/
def State.WaitOver (r : Nat → State) (trace : List DacValue) (s : State) : Prop :=
  s.engineState = .idle ∧ (NoReset r → s.Stopped trace)

section Wait

variable {r : Nat → State} {trace : List DacValue}

theorem run_waiting (hr : IsRun r) (h0 : Inv (r 0)) {m : Nat} (hw : (r m).Waiting trace) :
    ((r (m + 1)).Waiting trace ∧ ((r m).syncBusy = false → (r (m + 1)).syncBusy = false)) ∨
    (r (m + 1)).WaitOver r trace := by
  obtain hwaits | hstop | hreset := step_waiting (hr.inv h0 m) hw (hr m)
  · exact .inl hwaits
  · have hstopped := hw.endStop (hr.inv h0 m)
    rw [← hstop] at hstopped
    exact .inr ⟨hstopped.idle, fun _ => hstopped⟩
  · exact .inr ⟨step_reset hreset (hr m), fun hno => absurd hreset ((noReset_iff r).1 hno m)⟩

/-- The synchronisation of the stop completes (R104). -/
theorem wait_synchronises (hr : IsRun r) (h0 : Inv (r 0)) (hfair : SyncFair r) {n : Nat}
    (hn : (r n).Waiting trace) :
    ∃ m, n ≤ m ∧ ((r m).Waiting trace ∧ (r m).syncBusy = false ∨ (r m).WaitOver r trace) := by
  cases hsync : (r n).syncBusy with
  | false => exact ⟨n, Nat.le_refl n, .inl ⟨hn, hsync⟩⟩
  | true =>
    refine ((syncFair_iff r).1 hfair).leads_to (P := fun s => s.Waiting trace ∧ s.syncBusy = true)
      (Q := fun s => s.Waiting trace ∧ s.syncBusy = false ∨ s.WaitOver r trace)
      (fun m hm => hm.2) (fun m hm => ?keep) (fun m hm hturn => ?turn) ⟨hn, hsync⟩
    case keep =>
      obtain ⟨hwaits, -⟩ | hover := run_waiting hr h0 hm.1
      · cases hbusy : (r (m + 1)).syncBusy with
        | true => exact .inl ⟨hwaits, rfl⟩
        | false => exact .inr (.inl ⟨hwaits, rfl⟩)
      · exact .inr (.inr hover)
    case turn =>
      rw [step_syncComplete (hr m) hturn]
      exact .inl ⟨hm.1.takeTurn.syncTurn, State.syncTurn_syncBusy _⟩

/-- In a fair run the wait at the end of the buffer ends, and unless a reset falls it ends with part B (R115). -/
theorem wait_ends (hr : IsRun r) (h0 : Inv (r 0)) (hsync : SyncFair r) (hengine : EngineFair r) {n : Nat}
    (hn : (r n).Waiting trace) : ∃ m, n ≤ m ∧ (r m).WaitOver r trace := by
  obtain ⟨k, hk, hwait | hover⟩ := wait_synchronises hr h0 hsync hn
  case inr => exact ⟨k, hk, hover⟩
  have hready : ∀ m, (r m).Waiting trace ∧ (r m).syncBusy = false → (r m).stopReady = true :=
    fun m hm => (stopReady_iff _).2 ⟨hm.1.waits, hm.2⟩
  refine (((engineFair_iff r).1 hengine).leads_to
    (P := fun s => s.Waiting trace ∧ s.syncBusy = false) (Q := State.WaitOver r trace)
    (fun m hm => (engineReady_iff _).2 (.inr (hready m hm))) (fun m hm => ?keep) (fun m hm hturn => ?turn) hwait).imp
    fun m hm => ⟨hk.trans hm.1, hm.2⟩
  case keep => exact (run_waiting hr h0 hm.1).imp_left fun hwaits => ⟨hwaits.1, hwaits.2 hm.2⟩
  case turn =>
    have hstopped := hm.1.endStop (hr.inv h0 m)
    rw [← step_endStop hm.1 hm.2 hturn (hr m)] at hstopped
    exact ⟨hstopped.idle, fun _ => hstopped⟩

end Wait

/-- Settles O55: the synchroniser ends the synchronisation, and the engine then takes part B. -/
theorem fairEngineEndsItsStop : Obligations.FairEngineEndsItsStop := by
  intro r hr h0 hsync hengine n hn
  obtain ⟨m, hm, hidle, -⟩ := wait_ends hr h0 hsync hengine ⟨hn, rfl⟩
  exact ⟨m, hm, hidle⟩

end Sys2Proof.Machine
end

