-- ==== Sys2Proof/Proofs/FairPass.lean ====
section
/-! A pass under weak fairness (70_reset_and_hazards.md R181; 43_sample_advance_engine.md R115, R126): in any order of
the turns each emission is one step nearer to the stop, so that the pass ends after `(N - 1) * factor` emissions. -/

namespace Sys2Proof.Machine

/-! ### A pass in progress -/

/-- The trace's length once the pass that starts in this state is over (R126). -/
def State.passEnd (s : State) : Nat :=
  s.trace.length + (s.bufferLength.toNat - 1) * s.factor.toNat

/-- The pass started in `start` is in progress: the emissions made are those of the windows before the index and of
the phases of this one. -/
structure State.InPass (start s : State) : Prop where
  idle : s.engineState = .idle
  armed : s.timerEnable = true
  no_access : s.hostQueue = []
  length : s.bufferLength = start.bufferLength
  factor : s.factor = start.factor
  phase : s.phaseCounter.toNat < s.factor.toNat
  inside : s.sampleIndex.toNat < s.bufferLength.toNat
  emitted : s.trace.length = start.trace.length + (s.sampleIndex.toNat - 1) * s.factor.toNat + s.phaseCounter.toNat

/-- What a pass in progress says of the state. -/
def State.passView (s : State) :
    EngineState × Bool × List HostAccess × Word × Phase × Phase × Word × List DacValue :=
  (s.engineState, s.timerEnable, s.hostQueue, s.bufferLength, s.factor, s.phaseCounter, s.sampleIndex, s.trace)

@[simp] theorem State.takeTurn_passView (s : State) : s.takeTurn.passView = s.passView := by
  simp [State.passView]

theorem State.InPass.of_view {start s t : State} (h : start.InPass s) (hview : t.passView = s.passView) :
    start.InPass t ∧ t.trace = s.trace := by
  simp only [State.passView, Prod.mk.injEq] at hview
  obtain ⟨hengine, harmed, hqueue, hlength, hfactor, hphase, hindex, htrace⟩ := hview
  refine ⟨⟨hengine.trans h.idle, harmed.trans h.armed, hqueue.trans h.no_access, hlength.trans h.length,
    hfactor.trans h.factor, ?phase, ?inside, ?emitted⟩, htrace⟩
  case phase =>
    rw [hphase, hfactor]
    exact h.phase
  case inside =>
    rw [hindex, hlength]
    exact h.inside
  case emitted =>
    rw [htrace, hindex, hfactor, hphase]
    exact h.emitted

/-- The emissions a pass in progress has made are fewer than those of the whole pass. -/
theorem State.InPass.not_over {start s : State} (h : start.InPass s) (hinv : Inv s) :
    s.trace.length < start.passEnd := by
  have hone := hinv.index_from_one
  have hinside := h.inside
  have hphase := h.phase
  obtain ⟨i, hi⟩ : ∃ i, s.sampleIndex.toNat = i + 1 := ⟨s.sampleIndex.toNat - 1, by omega⟩
  have hwindows : (i + 1) * s.factor.toNat ≤ (s.bufferLength.toNat - 1) * s.factor.toNat :=
    Nat.mul_le_mul_right _ (by omega)
  rw [h.emitted, State.passEnd, ← h.length, ← h.factor, hi, Nat.add_sub_cancel]
  rw [Nat.succ_mul] at hwindows
  omega

/-- One more emission: the pass goes on, or it is over and the engine waits at the end of the buffer. -/
def State.PassAdvances (start : State) (emissions : Nat) (t : State) : Prop :=
  (start.InPass t ∧ t.trace.length = emissions + 1) ∨
    (t.engineState = .waitSync ∧ t.trace.length = start.passEnd)

/-! ### The steps of a pass -/

/-- An engine step of a pass in progress emits once, at the next phase, at the next window or at the stop. -/
theorem State.InPass.stepOutcome {start s t : State} (h : start.InPass s) (hinv : Inv s)
    (hready : s.interruptReady = true) (ht : s.StepOutcome t) : start.PassAdvances s.trace.length t := by
  obtain ⟨-, hirq, -⟩ := (interruptReady_iff s).1 hready
  obtain ⟨hlegal, -⟩ := hinv.configured hirq
  have hphase := phase_succ_of_le_three hinv.phase_range
  have hindex := hinv.index_succ h.idle
  have hinside := h.inside
  have hlt := h.phase
  have hemitted := h.emitted
  obtain ⟨i, hi⟩ : ∃ i, s.sampleIndex.toNat = i + 1 := ⟨s.sampleIndex.toNat - 1, by have := hinv.index_from_one; omega⟩
  rw [hi, Nat.add_sub_cancel] at hemitted
  have hwindow : (i + 1) * s.factor.toNat = i * s.factor.toNat + s.factor.toNat := Nat.succ_mul _ _
  cases ht with
  | @point op hop hinterior =>
    have hbelow := phase_lt_of_point hop hinterior
    refine .inl ⟨⟨h.idle, h.armed, h.no_access, h.length, h.factor, hbelow, h.inside, ?_⟩, by simp⟩
    change (s.trace ++ [_]).length =
      start.trace.length + (s.sampleIndex.toNat - 1) * s.factor.toNat + (s.phaseCounter + 1).toNat
    rw [List.length_append, List.length_singleton, hemitted, hphase, hi, Nat.add_sub_cancel]
    rfl
  | window hlast hmore =>
    refine .inl ⟨⟨h.idle, h.armed, h.no_access, h.length, h.factor, ?_, hmore, ?_⟩, by simp⟩
    · exact Nat.lt_of_le_of_lt (Nat.zero_le _) hlt
    · change (s.trace ++ [_]).length = start.trace.length + ((s.sampleIndex + 1).toNat - 1) * s.factor.toNat + 0
      rw [List.length_append, List.length_singleton, hemitted, hindex, hi, Nat.add_sub_cancel, hwindow]
      omega
  | stop hlast hend =>
    refine .inr ⟨rfl, ?_⟩
    have hlength : s.bufferLength.toNat - 1 = i + 1 := by omega
    change (s.trace ++ [_]).length = start.passEnd
    rw [List.length_append, List.length_singleton, hemitted, State.passEnd, ← h.length, ← h.factor, hlength, hwindow]
    omega
  | fallThrough hnone =>
    rw [hphase] at hnone
    exact absurd hnone (selectMicroOp_isSome hlegal (Nat.le_add_left 1 _))

theorem loadWindow_passView {s loaded : State} (h : s.loadWindow = .ok loaded) : loaded.passView = s.passView :=
  (congrArg State.passView (loadWindow_frame h)).trans rfl

/-- The engine's turn in a pass in progress with a tick pending. -/
theorem State.InPass.engine_step {start s t : State} (h : start.InPass s) (hinv : Inv s)
    (hready : s.interruptReady = true) (hturn : s.nextTurn = .engine) (hstep : step s = .next t) :
    start.PassAdvances s.trace.length t := by
  have hready' : s.takeTurn.interruptReady = true := s.takeTurn_interruptReady.trans hready
  rw [step_of_nextTurn hturn, State.runTurn, engineTurn_ready hready'] at hstep
  obtain ⟨loaded, hload, hout⟩ := engineStep_outcome (s.takeTurn_engineState.trans h.idle) hstep
  obtain ⟨hpass, htrace⟩ := h.of_view ((loadWindow_passView hload).trans s.takeTurn_passView)
  obtain ⟨hinv', -⟩ := hinv.takeTurn.loaded hload
  rw [← htrace]
  exact hpass.stepOutcome hinv' ((interruptReady_loaded hload).trans hready') hout

theorem hostTurn_noAccess {s : State} (h : s.hostQueue = []) : s.hostTurn = .next s := by
  unfold State.hostTurn
  rw [h]
  exact ite_self _

/-- Every other step leaves the pass where it is and a pending tick pending. -/
theorem State.InPass.quiet_step {start s t : State} (h : start.InPass s) (hreset : ¬ s.ResetFalls)
    (hquiet : ¬ (s.nextTurn = .engine ∧ s.interruptReady = true)) (hstep : step s = .next t) :
    t.passView = s.passView ∧ (s.ovfPending = true → t.ovfPending = true) := by
  obtain ⟨-, ht⟩ | ⟨-, rfl⟩ | ⟨-, rfl⟩ | ⟨hturn, ht⟩ | ⟨-, rfl⟩ | ⟨hturn, rfl⟩ := step_next hstep
  · rw [hostTurn_noAccess (s.takeTurn_hostQueue.trans h.no_access)] at ht
    cases ht
    exact ⟨s.takeTurn_passView, s.takeTurn_ovfPending.trans⟩
  · refine ⟨(congrArg State.passView (tickTurn_frame _)).trans s.takeTurn_passView, fun hpending => ?_⟩
    rw [tickTurn_ovfPending, s.takeTurn_ovfPending, hpending, Bool.or_true]
  · refine ⟨(congrArg State.passView (clockTurn_frame _)).trans s.takeTurn_passView, fun hpending => ?_⟩
    obtain hkeep | ⟨-, hset⟩ := clockTurn_ovfPending s.takeTurn
    · exact hkeep.trans (s.takeTurn_ovfPending.trans hpending)
    · exact hset
  · have hnot : s.takeTurn.engineReady = false := by
      have hnoint : s.interruptReady = false := by simpa [hturn] using hquiet
      simp [State.engineReady, State.stopReady, hnoint, h.idle]
    rw [engineTurn_passes hnot] at ht
    cases ht
    exact ⟨s.takeTurn_passView, s.takeTurn_ovfPending.trans⟩
  · refine ⟨(congrArg State.passView (syncTurn_frame _)).trans s.takeTurn_passView, fun hpending => ?_⟩
    exact (congrArg State.ovfPending (syncTurn_frame _)).trans (s.takeTurn_ovfPending.trans hpending)
  · have hframe := platformTurn_frame (s := s.takeTurn) fun hhead =>
      hreset ⟨hturn, by rwa [s.takeTurn_platformQueue] at hhead⟩
    refine ⟨(congrArg State.passView hframe).trans s.takeTurn_passView, fun hpending => ?_⟩
    exact (congrArg State.ovfPending hframe).trans (s.takeTurn_ovfPending.trans hpending)

/-! ### A pass along a run -/

section Run

variable {r : Nat → State}

/-- A pass in progress after this many emissions. -/
def State.InPassAt (start : State) (emissions : Nat) (s : State) : Prop :=
  start.InPass s ∧ s.trace.length = emissions

/-- Each step of a run keeps a pass and its pending tick where they are, or it is an emission. -/
theorem run_inPass (hr : IsRun r) (h0 : Inv (r 0)) (hno : NoReset r) {start : State} {emissions m : Nat}
    (h : start.InPassAt emissions (r m)) :
    (start.InPassAt emissions (r (m + 1)) ∧ ((r m).ovfPending = true → (r (m + 1)).ovfPending = true)) ∨
    start.PassAdvances emissions (r (m + 1)) := by
  obtain ⟨hpass, rfl⟩ := h
  by_cases hemits : (r m).nextTurn = .engine ∧ (r m).interruptReady = true
  · exact .inr (hpass.engine_step (hr.inv h0 m) hemits.2 hemits.1 (hr m))
  · obtain ⟨hview, hpending⟩ := hpass.quiet_step ((noReset_iff r).1 hno m) hemits (hr m)
    obtain ⟨hpass', htrace⟩ := hpass.of_view hview
    exact .inl ⟨⟨hpass', congrArg List.length htrace⟩, hpending⟩

/-- The armed timer ticks, and the tick stays pending (R101, R106). -/
theorem pass_ticks (hr : IsRun r) (h0 : Inv (r 0)) (hno : NoReset r) (htick : TickFair r) {start : State}
    {emissions n : Nat} (hn : start.InPassAt emissions (r n)) :
    ∃ m, n ≤ m ∧ ((start.InPassAt emissions (r m) ∧ (r m).ovfPending = true) ∨
      start.PassAdvances emissions (r m)) := by
  refine ((tickFair_iff r).1 htick).leads_to (P := start.InPassAt emissions)
    (Q := fun s => (start.InPassAt emissions s ∧ s.ovfPending = true) ∨ start.PassAdvances emissions s)
    (fun m hm => hm.1.armed) (fun m hm => ?keep) (fun m hm hturn => ?turn) hn
  case keep => exact (run_inPass hr h0 hno hm).imp And.left .inr
  case turn =>
    refine (run_inPass hr h0 hno hm).imp_left fun hkeep => ⟨hkeep.1, ?_⟩
    have hstep := hr m
    rw [step_of_nextTurn hturn] at hstep
    rw [← Host.Outcome.next.inj hstep, tickTurn_ovfPending, State.takeTurn_timerEnable, hm.1.armed, Bool.true_or]

/-- The pending tick is served, with one emission (R110, R132). -/
theorem pass_advances (hr : IsRun r) (h0 : Inv (r 0)) (hno : NoReset r) (htick : TickFair r) (hengine : EngineFair r)
    {start : State} {emissions n : Nat} (hn : start.InPassAt emissions (r n)) :
    ∃ m, n ≤ m ∧ start.PassAdvances emissions (r m) := by
  obtain ⟨k, hk, hpending | hadvances⟩ := pass_ticks hr h0 hno htick hn
  case inr => exact ⟨k, hk, hadvances⟩
  have hready : ∀ m, start.InPassAt emissions (r m) ∧ (r m).ovfPending = true → (r m).interruptReady = true :=
    fun m hm => (interruptReady_iff _).2 ⟨hm.2, (hr.inv h0 m).pending_only_configured hm.2, hm.1.1.idle⟩
  refine (((engineFair_iff r).1 hengine).leads_to
    (P := fun s => start.InPassAt emissions s ∧ s.ovfPending = true) (Q := start.PassAdvances emissions)
    (fun m hm => (engineReady_iff _).2 (.inl (hready m hm))) (fun m hm => ?keep) (fun m hm hturn => ?turn)
    hpending).imp fun m hm => ⟨hk.trans hm.1, hm.2⟩
  case keep => exact (run_inPass hr h0 hno hm.1).imp_left fun hkeep => ⟨hkeep.1, hkeep.2 hm.2⟩
  case turn =>
    rw [← hm.1.2]
    exact hm.1.1.engine_step (hr.inv h0 m) (hready m hm) hturn (hr m)

/-- After the emissions still missing, the engine waits at the end of the buffer. -/
theorem pass_reaches_end (hr : IsRun r) (h0 : Inv (r 0)) (hno : NoReset r) (htick : TickFair r)
    (hengine : EngineFair r) {start : State} (missing : Nat) {emissions n : Nat}
    (hn : start.InPassAt emissions (r n)) (hmissing : emissions + missing = start.passEnd) :
    ∃ m, (r m).engineState = .waitSync ∧ (r m).trace.length = start.passEnd := by
  induction missing generalizing emissions n with
  | zero =>
    have hlt := hn.1.not_over (hr.inv h0 n)
    rw [hn.2] at hlt
    omega
  | succ missing ih =>
    obtain ⟨m, -, hpass | hend⟩ := pass_advances hr h0 hno htick hengine hn
    · exact ih hpass (by omega)
    · exact ⟨m, hend⟩

end Run

/-- A block armed at the start of a buffer of at least two bytes, with no access to come, starts a pass. -/
theorem inPass_start {s : State} (hinv : Inv s) (hqueue : s.hostQueue = []) (harmed : s.timerEnable = true)
    (hindex : s.sampleIndex = 1#32) (hphase : s.phaseCounter = 0#3) (hlength : 2 ≤ s.bufferLength.toNat) :
    s.InPass s where
  idle := by
    cases hengine : s.engineState with
    | idle => rfl
    | waitSync => exact absurd (harmed.symm.trans (hinv.stopping hengine).1) (by decide)
  armed := harmed
  no_access := hqueue
  length := rfl
  factor := rfl
  phase := by
    obtain ⟨hlegal, -⟩ := hinv.configured (hinv.armed_only_configured harmed)
    rw [hphase]
    rcases hlegal with hf | hf | hf <;> rw [hf] <;> decide
  inside := by
    rw [hindex]
    exact hlength
  emitted := by simp [hindex, hphase]

/-- Settles O56: emission by emission the pass reaches the end of the buffer, and the wait there ends with part B. -/
theorem fairPassEnds : Obligations.FairPassEnds := by
  intro r hr h0 htick hengine hsync hno hqueue harmed hindex hphase hlength
  have hstart := inPass_start h0 hqueue harmed hindex hphase hlength
  obtain ⟨missing, hmissing⟩ := Nat.exists_eq_add_of_lt (hstart.not_over h0)
  obtain ⟨k, hwaits, hend⟩ := pass_reaches_end hr h0 hno htick hengine (missing + 1) ⟨hstart, rfl⟩ hmissing.symm
  obtain ⟨m, -, -, hstopped⟩ := wait_ends hr h0 hsync hengine ⟨hwaits, rfl⟩
  obtain ⟨hidle, hdisarmed, hclear, hindex', hphase', htrace⟩ := hstopped hno
  exact ⟨m, hidle, hdisarmed, hclear, hindex', hphase', (congrArg List.length htrace).trans hend⟩

end Sys2Proof.Machine
end
